-- ==== Sys2Proof/Word.lean ====
section
/-! DEFINITION. The engine's word types (00_scope.md R8, R11). Every value is unsigned and every
32-bit addition is modulo 2^32 (R12), which is `BitVec` addition. -/

namespace Sys2Proof

/-- A u32 (R11): the width of every register and of the bus (R10 BUSW). -/
abbrev Word := BitVec 32

/-- A byte (R11). -/
abbrev Byte := BitVec 8

/-- A u64 (R11): the width of the counters LEN and SEGCNT (R10 LENW). -/
abbrev DWord := BitVec 64

end Sys2Proof
end

