-- ==== Sys2Proof/Syntax.lean ====
section
/-! DEFINITION. The commands (30_encoding.md R91, R97; opcode_table.json): one constructor for each
row of the table. -/

namespace Sys2Proof

/-- A host command (R91), in the assembler's operands (R97). -/
inductive Instr where
  /-- MD4_INIT (R192): start a raw MD4 computation. -/
  | md4Init
  /-- ED2K_INIT (R193): start an ED2K computation. -/
  | ed2kInit
  /-- ABSORB nb (R194): append `nb` message bytes, `nb` from 1 to 4 (R97; see `Instr.WellFormed`). -/
  | absorb (nb : Nat)
  /-- FINAL (R196): pad, finish and select the digest. -/
  | final
  /-- CLEAR (R198): return the engine to its reset state. -/
  | clear
  deriving DecidableEq, Repr

end Sys2Proof
end

