-- ==== Sys2Proof/WellFormed.lean ====
section
/-! DEFINITION. Which terms of `Instr` are commands of the machine. -/

namespace Sys2Proof

/-- R94, R97: an ABSORB carries 1 to 4 bytes ("An ABSORB with 0 bytes cannot be encoded"); the other
commands have no operand (R95). -/
abbrev Instr.WellFormed : Instr → Prop
  | .md4Init => True
  | .ed2kInit => True
  | .absorb nb => 1 ≤ nb ∧ nb ≤ 4
  | .final => True
  | .clear => True

end Sys2Proof
end

