-- ==== Sys2Proof/Decode.lean ====
section
/-! DEFINITION. Decoding of command words (30_encoding.md R90 to R96), the encoder (R93, R97), and
the table of match and mask (R93). -/

namespace Sys2Proof

/-- Why a command word is illegal: the three kinds of R96 and R231. Every one raises ILLEGAL_CMD. -/
inductive IllegalWord where
  /-- OP is 0x0 or 0x6 to 0xF (R91). -/
  | reservedOp
  /-- RSV, bits [31:6], is not 0 (R90). -/
  | nonzeroRsv
  /-- NBM1, bits [5:4], is not 0 and OP is not ABSORB (R90). -/
  | nonzeroNbm1
  deriving DecidableEq, Repr

/-- OP, bits [3:0] (R90). -/
def opField (c : Word) : BitVec 4 := c.extractLsb' 0 4

/-- NBM1, bits [5:4] (R90). -/
def nbm1Field (c : Word) : BitVec 2 := c.extractLsb' 4 2

/-- RSV, bits [31:6] (R90). -/
def rsvField (c : Word) : BitVec 26 := c.extractLsb' 6 26

/-- A command without operand: NBM1 must be 0 (R90, R95). -/
def withoutOperand (c : Word) (i : Instr) : Except IllegalWord Instr :=
  if nbm1Field c = 0 then .ok i else .error .nonzeroNbm1

/-- The decoder (R90 to R92), total on all 2^32 words. The legality of a word does not depend on
MODE or PHASE (R90). -/
def decode (c : Word) : Except IllegalWord Instr :=
  if rsvField c ≠ 0 then .error .nonzeroRsv
  else match (opField c).toNat with
    | 0x1 => withoutOperand c .md4Init
    | 0x2 => withoutOperand c .ed2kInit
    | 0x3 => .ok (.absorb ((nbm1Field c).toNat + 1))
    | 0x4 => withoutOperand c .final
    | 0x5 => withoutOperand c .clear
    | _ => .error .reservedOp

/-- `Legal(c)` of R92. -/
def legalWord (c : Word) : Bool := (decode c).isOk

/-- The word of the four byte lanes of the bus, lane 0 first (R64): little-endian. -/
def commandWord (b0 b1 b2 b3 : Byte) : Word := b3 ++ b2 ++ b1 ++ b0

/-- The command carried by the first four bytes of a byte list in lane order (R64), with the bytes
after them; none where fewer than four bytes are left or the word is illegal. -/
def decodeBytes : List Byte → Option (Instr × List Byte)
  | b0 :: b1 :: b2 :: b3 :: rest =>
    match decode (commandWord b0 b1 b2 b3) with
    | .ok i => some (i, rest)
    | .error _ => none
  | _ => none

/-- The command word of an instruction (R93, R97: `ABSORB nb` is `0x00000003 | ((nb − 1) << 4)`). -/
def encode : Instr → Word
  | .md4Init => 0x00000001
  | .ed2kInit => 0x00000002
  | .absorb nb => 0x00000003 ||| (BitVec.ofNat 32 (nb - 1) <<< 4)
  | .final => 0x00000004
  | .clear => 0x00000005

/-- One row of the table of R93: a word `c` is its command iff `c & mask = match`. -/
structure CommandRow where
  mnemonic : String
  pattern : Word
  mask : Word
  deriving DecidableEq, Repr

/-- The table of R93 (and opcode_table.json), row by row. -/
def commandTable : List CommandRow :=
  [⟨"MD4_INIT", 0x00000001, 0xFFFFFFFF⟩,
   ⟨"ED2K_INIT", 0x00000002, 0xFFFFFFFF⟩,
   ⟨"ABSORB", 0x00000003, 0xFFFFFFCF⟩,
   ⟨"FINAL", 0x00000004, 0xFFFFFFFF⟩,
   ⟨"CLEAR", 0x00000005, 0xFFFFFFFF⟩]

/-- The mnemonic of R91. -/
def Instr.mnemonic : Instr → String
  | .md4Init => "MD4_INIT"
  | .ed2kInit => "ED2K_INIT"
  | .absorb _ => "ABSORB"
  | .final => "FINAL"
  | .clear => "CLEAR"

/-- The instruction the decoder reads from an instruction of opcode_table.json whose bits are `w`,
`nbits` of them (every bit above is 0). A command is one 32-bit word (R90). -/
def decodeTableWord (nbits w : Nat) : Option Instr :=
  match decode (BitVec.ofNat 32 (w % 2 ^ nbits)) with
  | .ok i => some i
  | .error _ => none

end Sys2Proof
end

