-- ==== Sys2Proof/Machine/State.lean ====
section
/-! DEFINITION. The engine's state (10_state.md), as plain data; the reasons a step can stop; the
state after reset (R50). The registers the host reads are views of this state
(Machine/Window.lean). The working registers w[0..3] and the message words X[0..15] are no state
between commands (R23, R24): they are values inside `compress`. -/

namespace Sys2Proof.Machine

/-- A hash state (A, B, C, D) or a digest held as four words (R21, R16). -/
abbrev HashWords := Vector Word 4

/-- The 64-byte block or partial-block buffer (R8 BLOCK, R21). -/
abbrev Block := Vector Byte 64

/-- An MD4 context (R21): the hash state H, the partial block BUF, and LEN, the number of message
bytes absorbed. The fill level of BUF is LEN mod 64 (R25). -/
structure Context where
  h : HashWords
  buf : Block
  len : DWord
  deriving DecidableEq, Repr

/-- Every part of a context 0: its value at reset (R50) and CO's in MD4 mode (R35, R192). -/
def Context.zero : Context where
  h := Vector.replicate 4 0
  buf := Vector.replicate 64 0
  len := 0

/-- PHASE (R31). -/
inductive Phase where
  | idle | active | done | error
  deriving DecidableEq, Repr

/-- MODE (R32). The reserved value 3 is never produced (93_implementation_defined.md U7; log 8). -/
inductive Mode where
  | none | md4 | ed2k
  deriving DecidableEq, Repr

/-- ERRCODE (R33). The reserved values 4 to 15 are never produced (U7; log 8). -/
inductive ErrCode where
  | none | illegalCmd | sequence | lengthOverflow
  deriving DecidableEq, Repr

/-- PEND (R34): the command word written and the value DIN held when it was accepted. Meaningful
only while BUSY = 1. -/
structure Pending where
  cmd : Word
  din : Word
  deriving DecidableEq, Repr

/-- The size of a bus access (R63). Every size above 32 bits is answered alike, so they are one
class (log 16). -/
inductive AccessSize where
  | bits8 | bits16 | bits32 | wider
  deriving DecidableEq, Repr

/-- What a bus access does. Only a 32-bit write has its value used, so the value is a word (log 16). -/
inductive BusOp where
  | read
  | write (v : Word)
  deriving DecidableEq, Repr

/-- A host access to the window (R60): the offset, address − ENGINE_BASE, lies in [0, 127]. -/
structure BusAccess where
  off : BitVec 7
  size : AccessSize
  op : BusOp
  deriving DecidableEq, Repr

/-- What the host gets for an access. -/
inductive BusReply where
  /-- The value of a defined read. -/
  | data (v : Word)
  /-- A defined write has completed (also one that is ignored, R68). -/
  | written
  /-- The bus error response to a read, with the data value on the bus (R63: 0). -/
  | readError (v : Word)
  /-- The bus error response to a write (R63). -/
  | writeError
  /-- A held access released by reset "with no effect" (R260). -/
  | released
  deriving DecidableEq, Repr

/-- The machine: the engine's state (every row of R50's table), and what its host side holds. -/
structure State where
  /-- PHASE (R31). -/
  phase : Phase
  /-- MODE (R32). -/
  mode : Mode
  /-- ERRCODE (R33). -/
  errcode : ErrCode
  /-- BUSY (R34). -/
  busy : Bool
  /-- PEND (R34). -/
  pend : Pending
  /-- DIN (R30). -/
  din : Word
  /-- DG[0..3] (R29). -/
  dg : HashWords
  /-- The inner context CI (R26). -/
  ci : Context
  /-- The outer context CO (R26). -/
  co : Context
  /-- SEGCNT (R27). -/
  segcnt : DWord
  /-- SEG0[0..3] (R28). -/
  seg0 : HashWords
  /-- The MODEL's own: the level of the reset input (R260; log 4). -/
  resetIn : Bool
  /-- The MODEL's own: steps still to pass before the pending command executes (R275; log 2). -/
  delay : Nat
  /-- The MODEL's own: how many commands this engine has accepted; the free values' counter (log 2). -/
  accepted : Nat
  /-- The MODEL's own: accesses the host has issued and the engine has not completed, oldest first
  (R70; log 1). -/
  bus : List BusAccess
  /-- The MODEL's own: the replies given to the host, oldest first (log 1). -/
  replies : List BusReply
  deriving DecidableEq, Repr

/-- Why the machine stops with a fault: never. Every error of the spec is a next state (R236) and
every bus error a reply (R63), so this type has no constructor (log 13). -/
inductive Fault where
  deriving DecidableEq, Repr

/-- Why the model has no meaning for what it is asked. -/
inductive Refusal where
  /-- Raised by an arm of `exec` for a command that has no meaning yet; no arm does. Safe. -/
  | notModelled (mnemonic : String)
  /-- Raised by `Platform.access`, never by `step`: the address lies in no engine's window, and what
  such an access does "belongs to the platform and is not part of this spec" (R62; U15). Safe. -/
  | outsideWindow
  deriving DecidableEq, Repr

/-- The machine right after reset: every state of R50's table at the value the table gives. IV is not
loaded (R261). The model's own fields: the reset input released, nothing issued, nothing pending
(log 1, log 2, log 4: DESIGN CHOICE). -/
def State.reset : State where
  phase := .idle
  mode := .none
  errcode := .none
  busy := false
  pend := ⟨0, 0⟩
  din := 0
  dg := Vector.replicate 4 0
  ci := Context.zero
  co := Context.zero
  segcnt := 0
  seg0 := Vector.replicate 4 0
  resetIn := false
  delay := 0
  accepted := 0
  bus := []
  replies := []

end Sys2Proof.Machine
end

