-- ==== Sys2Proof/Machine/Constants.lean ====
section
/-! DEFINITION. The constants every rule uses (00_scope.md R8, R9, R15) and the two constant
registers (R40, R48). -/

namespace Sys2Proof.Machine

/-- IV, the initial hash state (A, B, C, D) (R15). -/
def iv : HashWords := #v[0x67452301, 0xEFCDAB89, 0x98BADCFE, 0x10325476]

/-- K1 (R15): round 1 has "no additive constant". -/
def k1 : Word := 0x00000000

/-- K2 (R15). -/
def k2 : Word := 0x5A827999

/-- K3 (R15). -/
def k3 : Word := 0x6ED9EBA1

/-- S1, the shift schedule of round 1, indexed by n mod 4 (R15). -/
def s1 : Vector Nat 4 := #v[3, 7, 11, 19]

/-- S2, the shift schedule of round 2 (R15). -/
def s2 : Vector Nat 4 := #v[3, 5, 9, 13]

/-- S3, the shift schedule of round 3 (R15). -/
def s3 : Vector Nat 4 := #v[3, 9, 11, 15]

/-- P3, the word permutation of round 3 (R15). -/
def p3 : Vector (Fin 16) 16 := #v[0, 8, 4, 12, 2, 10, 6, 14, 1, 9, 5, 13, 3, 11, 7, 15]

/-- CHUNK_SIZE in bytes (R8, R15): 9500 × 1024. -/
def chunkSize : Nat := 9728000

/-- LEN_MAX, the longest message of one context in bytes (R9). -/
def lenMax : Nat := 2 ^ 61 - 1

/-- The most segments an ED2K computation closes (R170). -/
def segMax : Nat := 2 ^ 57 - 1

/-- The value of the ID register (R40). -/
def idValue : Word := 0x4D443401

/-- The value of the CHUNK register (R48). -/
def chunkValue : Word := 0x00947000

end Sys2Proof.Machine
end

