-- ==== Sys2Proof/Machine/Ops.lean ====
section
/-! DEFINITION. The shared operations: rotation and byte order (R12, R13, R140), how a command's
statements follow one another and how `raise` ends it (R14), error entry (R236), and the
operations that set the engine's state for INIT, CLEAR and reset. The engine has no memory (R61). -/

namespace Sys2Proof.Machine

/-- `rotl(v, s)` (R12), used for 1 ≤ s ≤ 31 only (R115; log 15). -/
def rotl (v : Word) (s : Nat) : Word := (v <<< s) ||| (v >>> (32 - s))

/-- `LE32(b0, b1, b2, b3)` (R13): four bytes as a little-endian word. -/
def le32 (b0 b1 b2 b3 : Byte) : Word := b3 ++ b2 ++ b1 ++ b0

/-- `w[8i+7 : 8i]`: byte `i` of a word, byte 0 the least significant (R13, R16). -/
def byteOf (w : Word) (i : Nat) : Byte := w.extractLsb' (8 * i) 8

/-- `bytesLE32(w)` (R13). -/
def bytesLE32 (w : Word) : List Byte := [byteOf w 0, byteOf w 1, byteOf w 2, byteOf w 3]

/-- `bytesLE64(v)` (R13): the eight bytes of a u64, least significant first. -/
def bytesLE64 (v : DWord) : List Byte := (List.range 8).map fun i => v.extractLsb' (8 * i) 8

/-- `Serialize(h[0..3])` (R140, R16): A, B, C, D, each least significant byte first. -/
def serialize (h : HashWords) : List Byte :=
  bytesLE32 h[0] ++ bytesLE32 h[1] ++ bytesLE32 h[2] ++ bytesLE32 h[3]

/-- The result of some statements of a command: either the command goes on from a state, or it has
ended in one (R14: `raise` "ends the current command at once"; R191: "return from Execute"). -/
inductive Flow where
  | goOn (s : State)
  | ended (s : State)
  deriving DecidableEq, Repr

/-- The statements after these: performed if the command goes on, not performed if it has ended. -/
def Flow.andThen : Flow → (State → Flow) → Flow
  | .goOn s, k => k s
  | .ended s, _ => .ended s

/-- The state a command leaves, however it came to its end. -/
def Flow.state : Flow → State
  | .goOn s => s
  | .ended s => s

/-- Error entry, the state part of `raise Error(code)` (R236): the first error is kept, nothing else
is written. -/
def raiseError (code : ErrCode) (s : State) : State :=
  if s.phase = .error then s else { s with phase := .error, errcode := code }

/-- `raise Error(code)` (R14, R236): error entry, and the command ends. -/
def raise (code : ErrCode) (s : State) : Flow := .ended (raiseError code s)

/-- `MODE <- m; ERRCODE <- 0; PHASE <- ACTIVE` (R192, R193): the INITs' way into ACTIVE, which is also
their way out of ERROR; nothing of a failed computation is resumed (R238). -/
def enterActive (m : Mode) (s : State) : State :=
  { s with mode := m, errcode := .none, phase := .active }

/-- Every state of R50's table to its reset value: CLEAR (R198, R51), and reset (R260). What the host
side holds is no state of that table and stays. -/
def clearEngine (s : State) : State :=
  { State.reset with
    resetIn := s.resetIn, accepted := s.accepted, bus := s.bus, replies := s.replies }

/-- `RequireActive()` (R191): in ERROR the command ends with no effect; in IDLE and DONE it raises
SEQUENCE (R232). -/
def requireActive (s : State) : Flow :=
  match s.phase with
  | .error => .ended s
  | .active => .goOn s
  | .idle => raise .sequence s
  | .done => raise .sequence s

end Sys2Proof.Machine
end

