-- ==== Sys2Proof/Machine/Md4.lean ====
section
/-! DEFINITION. The MD4 engine (40_md4_engine.md): block decomposition, round functions, the 48
steps, compression, padding, and the streaming form Md4Init, Md4Absorb, Md4Finalize. -/

namespace Sys2Proof.Machine

/-- `X[i] = LE32(blk[4i], blk[4i+1], blk[4i+2], blk[4i+3])` (R111). -/
def messageWords (blk : Block) : Vector Word 16 :=
  Vector.ofFn fun i => le32 blk[4 * i.val] blk[4 * i.val + 1] blk[4 * i.val + 2] blk[4 * i.val + 3]

/-- The round-1 function F (R112). -/
def roundF (x y z : Word) : Word := (x &&& y) ||| (~~~x &&& z)

/-- The round-2 function G (R113). -/
def roundG (x y z : Word) : Word := (x &&& y) ||| (x &&& z) ||| (y &&& z)

/-- The round-3 function H (R114). -/
def roundH (x y z : Word) : Word := x ^^^ y ^^^ z

/-- The index with offset `r` in the rotation of step `n`: `(r − n) mod 4` (R116). Offset 0 is i, the
destination and first addend; 1, 2 and 3 are j, k and l, the function's operands in order. -/
def role (n r : Nat) : Fin 4 := ⟨(r + (4 - n % 4)) % 4, Nat.mod_lt _ (by decide)⟩

/-- One step (R117 to R119): `w[i] <- rotl(w[i] + fn(w[j], w[k], w[l]) + x + k, s)`. -/
def md4Step (fn : Word → Word → Word → Word) (x k : Word) (s n : Nat) (w : HashWords) : HashWords :=
  w.set (role n 0) (rotl (w[role n 0] + fn w[role n 1] w[role n 2] w[role n 3] + x + k) s)

/-- The shift of step `n` in a schedule, indexed by n mod 4 (R15). -/
def shiftAt (sched : Vector Nat 4) (n : Nat) : Nat := sched[n % 4]'(Nat.mod_lt _ (by decide))

/-- Round-1 step n (R117): word X[n], constant K1, schedule S1. -/
def round1Step (x : Vector Word 16) (w : HashWords) (n : Fin 16) : HashWords :=
  md4Step roundF x[n] k1 (shiftAt s1 n) n w

/-- Round-2 step n (R118): word X[(n mod 4)·4 + n div 4], constant K2, schedule S2. -/
def round2Step (x : Vector Word 16) (w : HashWords) (n : Fin 16) : HashWords :=
  md4Step roundG (x[n.val % 4 * 4 + n.val / 4]'(by omega)) k2 (shiftAt s2 n) n w

/-- Round-3 step n (R119): word X[P3[n]], constant K3, schedule S3. -/
def round3Step (x : Vector Word 16) (w : HashWords) (n : Fin 16) : HashWords :=
  md4Step roundH x[p3[n]] k3 (shiftAt s3 n) n w

/-- The 48 steps, in order, on the working registers (R120). -/
def allSteps (x : Vector Word 16) (w : HashWords) : HashWords :=
  let w1 := (List.finRange 16).foldl (round1Step x) w
  let w2 := (List.finRange 16).foldl (round2Step x) w1
  (List.finRange 16).foldl (round3Step x) w2

/-- `Compress(h, blk)` (R120): the working registers start as a copy of h, the 48 steps modify them,
and the feed-forward adds them back into h, word by word, modulo 2^32. Total: no error. -/
def compress (h : HashWords) (blk : Block) : HashWords :=
  Vector.zipWith (· + ·) h (allSteps (messageWords blk) h)

/-- `z = (55 − L) mod 64` (R130), with the remainder not negative (R12). -/
def padZeros (len : Nat) : Nat := (119 - len % 64) % 64

/-- `Pad(L) = 0x80 ‖ zeros(z) ‖ bytesLE64(8·L)` (R130, R131), for L ≤ LEN_MAX (above it: log 7). -/
def pad (len : Nat) : List Byte :=
  0x80 :: (List.replicate (padZeros len) 0 ++ bytesLE64 (BitVec.ofNat 64 (8 * len)))

/-- `Md4Init(C)` (R133): IV, no bytes, BUF 0. -/
def md4Init : Context where
  h := iv
  buf := Vector.replicate 64 0
  len := 0

/-- `Md4Absorb(C, b)` (R132); none is the raise of LENGTH_OVERFLOW, with nothing written. The byte that
fills BUF is compressed at once (D9). -/
def md4Absorb (c : Context) (b : Byte) : Option Context :=
  if c.len = BitVec.ofNat 64 lenMax then none
  else
    let buf := c.buf.setIfInBounds (c.len.toNat % 64) b
    let len := c.len + 1
    some { h := if len.toNat % 64 = 0 then compress c.h buf else c.h, buf := buf, len := len }

/-- One turn of Md4Finalize's loop (R134): `C.BUF[f] <- b; f <- f + 1`, and at f = 64 a compression. -/
def finalizeByte (cf : Context × Nat) (b : Byte) : Context × Nat :=
  let buf := cf.1.buf.setIfInBounds cf.2 b
  if cf.2 + 1 = 64 then ({ cf.1 with h := compress cf.1.h buf, buf := buf }, 0)
  else ({ cf.1 with buf := buf }, cf.2 + 1)

/-- `Md4Finalize(C)` (R134): the context it leaves; the value it returns is that context's H. LEN is
not changed. -/
def md4Finalize (c : Context) : Context :=
  ((pad c.len.toNat).foldl finalizeByte (c, c.len.toNat % 64)).1

/-- `Md4Absorb(CI, b)` as a statement of a command (R132, R233). -/
def absorbInner (b : Byte) (s : State) : Flow :=
  match md4Absorb s.ci b with
  | some c => .goOn { s with ci := c }
  | none => raise .lengthOverflow s

/-- `Md4Absorb(CO, b)` as a statement of a command (R170). -/
def absorbOuter (b : Byte) (s : State) : Flow :=
  match md4Absorb s.co b with
  | some c => .goOn { s with co := c }
  | none => raise .lengthOverflow s

end Sys2Proof.Machine
end

