-- ==== Sys2Proof/Machine/Ed2k.lean ====
section
/-! DEFINITION. The ED2K chunker's streaming form (41_ed2k_chunker.md R169 to R173). -/

namespace Sys2Proof.Machine

/-- `Ed2kInit()` (R169). -/
def ed2kInit (s : State) : State :=
  { s with ci := md4Init, co := md4Init, segcnt := 0, seg0 := Vector.replicate 4 0 }

/-- `for t in 0..15: Md4Absorb(CO, d[t])` (R170), for any list of bytes. -/
def absorbAllOuter : List Byte → State → Flow
  | [], s => .goOn s
  | b :: bs, s => (absorbOuter b s).andThen (absorbAllOuter bs)

/-- `SegmentClose()` (R170). -/
def segmentClose (s : State) : Flow :=
  if s.segcnt = BitVec.ofNat 64 segMax then raise .lengthOverflow s
  else
    let ci := md4Finalize s.ci
    (absorbAllOuter (serialize ci.h) { s with ci := ci }).andThen fun s =>
      .goOn { s with
        seg0 := if s.segcnt = 0 then ci.h else s.seg0
        segcnt := s.segcnt + 1
        ci := md4Init }

/-- `Ed2kAbsorb(b)` (R171): the byte that makes the segment CHUNK_SIZE long closes it. -/
def ed2kAbsorb (b : Byte) (s : State) : Flow :=
  (absorbInner b s).andThen fun s =>
    if s.ci.len = BitVec.ofNat 64 chunkSize then segmentClose s else .goOn s

/-- The selection of `Ed2kFinalize` (R173, R164): with exactly one segment its digest, else the second
MD4 pass. -/
def ed2kSelect (s : State) : State :=
  if s.segcnt = 1 then { s with dg := s.seg0 }
  else
    let co := md4Finalize s.co
    { s with co := co, dg := co.h }

/-- `Ed2kFinalize()` (R173): a last, partial segment is closed; an empty one is not (R174). -/
def ed2kFinalize (s : State) : Flow :=
  (if s.ci.len = 0 then .goOn s else segmentClose s).andThen fun s => .goOn (ed2kSelect s)

end Sys2Proof.Machine
end

