-- ==== Sys2Proof/Machine/Operands.lean ====
section
/-! DEFINITION. The one operand form of the command set: the bytes of an ABSORB (R94, R95). -/

namespace Sys2Proof.Machine

/-- The four byte lanes of a DIN value, lane 0 first (R43, R64, R94: `din[8t+7 : 8t]`). -/
def dinLanes (din : Word) : List Byte := bytesLE32 din

/-- The message bytes of `ABSORB nb` (R94): lanes 0 to nb − 1 of the DIN value captured at acceptance,
in increasing order. Lanes nb and above are ignored (U9). (For an ill-formed nb above 4, which
nothing decodes to, the four lanes: log 14.) -/
def absorbOperand (nb : Nat) (din : Word) : List Byte := (dinLanes din).take nb

/-- The DIN value that carries up to four bytes in its low lanes, absent bytes taken as 0 (R98). -/
def dinOfBytes (bs : List Byte) : Word := le32 (bs.getD 0 0) (bs.getD 1 0) (bs.getD 2 0) (bs.getD 3 0)

end Sys2Proof.Machine
end

