-- ==== Sys2Proof/Machine/Commands.lean ====
section
/-! DEFINITION. The meanings of the five commands (42_commands.md R191 to R198): what `Execute`
does for each. Acceptance and the clearing of BUSY are around them (R190; Machine/Execution.lean). -/

namespace Sys2Proof.Machine

/-- MD4_INIT (R192). -/
def execMd4Init (s : State) : Host.Outcome State Fault Refusal :=
  .next (enterActive .md4
    { s with
      ci := md4Init
      co := Context.zero
      segcnt := 0
      seg0 := Vector.replicate 4 0
      dg := Vector.replicate 4 0 })

/-- ED2K_INIT (R193). -/
def execEd2kInit (s : State) : Host.Outcome State Fault Refusal :=
  .next (enterActive .ed2k { ed2kInit s with dg := Vector.replicate 4 0 })

/-- `AbsorbByte(b)` (R195): the dispatch by mode. With MODE NONE, which no ACTIVE state has (R35),
neither arm applies (log 8). -/
def absorbByte (b : Byte) (s : State) : Flow :=
  match s.mode with
  | .md4 => absorbInner b s
  | .ed2k => ed2kAbsorb b s
  | .none => .goOn s

/-- The byte loop of ABSORB (R194): bytes are absorbed one at a time, and a raise stops the loop. -/
def absorbBytes : List Byte → State → Flow
  | [], s => .goOn s
  | b :: bs, s => (absorbByte b s).andThen (absorbBytes bs)

/-- ABSORB nb (R194). -/
def execAbsorb (nb : Nat) (s : State) : Host.Outcome State Fault Refusal :=
  .next ((requireActive s).andThen (absorbBytes (absorbOperand nb s.pend.din))).state

/-- FINAL's middle statements (R196): the digest by mode. -/
def finalizeByMode (s : State) : Flow :=
  match s.mode with
  | .md4 => .goOn { s with ci := md4Finalize s.ci, dg := (md4Finalize s.ci).h }
  | .ed2k => ed2kFinalize s
  | .none => .goOn s

/-- FINAL (R196). -/
def execFinal (s : State) : Host.Outcome State Fault Refusal :=
  .next (((requireActive s).andThen finalizeByMode).andThen fun s => .goOn { s with phase := .done }).state

/-- CLEAR (R198, R51). -/
def execClear (s : State) : Host.Outcome State Fault Refusal := .next (clearEngine s)

end Sys2Proof.Machine
end

