-- ==== Sys2Proof/Machine/Dispatch.lean ====
section
/-! DEFINITION. `Execute`'s case on the command (42_commands.md R190): one arm for each command. -/

namespace Sys2Proof.Machine

def exec (i : Instr) (s : State) : Host.Outcome State Fault Refusal :=
  match i with
  | .md4Init => Sys2Proof.Machine.execMd4Init s
  | .ed2kInit => Sys2Proof.Machine.execEd2kInit s
  | .absorb nb => Sys2Proof.Machine.execAbsorb nb s
  | .final => Sys2Proof.Machine.execFinal s
  | .clear => Sys2Proof.Machine.execClear s

end Sys2Proof.Machine
end

