-- ==== Sys2Proof/Config.lean ====
section
/-! DEFINITION. The one open parameter of the engine that an implementation fixes and the machine
reads (92_eei_decisions.md section 7). ENGINE_BASE and NUM_ENGINES are arguments of
Machine/Platform.lean. The constants the spec fixes (R15) are in Machine/Constants.lean. -/

namespace Sys2Proof

/-- CMD_LATENCY (R10, R275): how many steps of the model pass between the acceptance of command
number `n` (counted from 0 by `State.accepted`) and its execution step. A free value: it has no
body, so nothing can be proved of its value, only that it is finite, which is the fairness R275
asks for. One value for each acceptance of an engine, so that it may differ from one command to the
next. DESIGN CHOICE, unsafe (log 2): the sequence is one and the same for every instance (R246) and
every run, each reading it at its own `State.accepted`; R275 leaves open whether latencies of
different instances are related, and whether they depend on the command and the state. -/
opaque Config.cmdLatency : Nat → Nat

end Sys2Proof
end

