-- ==== Sys2Proof/Machine/Flags.lean ====
section
/-! DEFINITION. STATUS, the engine's only flags (R42): the codes of its fields and the word. -/

namespace Sys2Proof.Machine

/-- PHASE as STATUS bits [2:1] (R31). -/
def Phase.bits : Phase → Word
  | .idle => 0
  | .active => 1
  | .done => 2
  | .error => 3

/-- MODE as STATUS bits [5:4] (R32). -/
def Mode.bits : Mode → Word
  | .none => 0
  | .md4 => 1
  | .ed2k => 2

/-- ERRCODE as STATUS bits [11:8] (R33). -/
def ErrCode.bits : ErrCode → Word
  | .none => 0
  | .illegalCmd => 1
  | .sequence => 2
  | .lengthOverflow => 3

/-- BUSY as STATUS bit 0 (R34). -/
def busyBit (b : Bool) : Word := if b then 1 else 0

/-- `STATUS = BUSY | (PHASE << 1) | (MODE << 4) | (ERRCODE << 8)` (R42); the reserved bits are 0 (U5).
While BUSY = 1 the other fields are those from before the pending command, because only the
execution step writes them (U20). -/
def statusWord (s : State) : Word :=
  busyBit s.busy ||| (s.phase.bits <<< 1) ||| (s.mode.bits <<< 4) ||| (s.errcode.bits <<< 8)

end Sys2Proof.Machine
end

