-- ==== Sys2Proof/Machine/Window.lean ====
section
/-! DEFINITION. The register window (10_state.md section 5; 20_memory.md): which register stands at
an offset, what a read returns, what a write does, which accesses are held, and how one access of
the bus is answered. -/

namespace Sys2Proof.Machine

/-- The registers of the window (10_state.md section 5). -/
inductive Reg where
  | id | cmd | status | din
  | digest (k : Fin 4)
  | state (k : Fin 4)
  | lenLo | lenHi | segcntLo | segcntHi | chunk
  | reserved
  deriving DecidableEq, Repr

/-- The register at an offset that is a multiple of 4 (10_state.md section 5); 0x44 to 0x7C are
reserved (R49). -/
def regAt (off : BitVec 7) : Reg :=
  match off.toNat with
  | 0x00 => .id
  | 0x04 => .cmd
  | 0x08 => .status
  | 0x0C => .din
  | 0x10 => .digest 0
  | 0x14 => .digest 1
  | 0x18 => .digest 2
  | 0x1C => .digest 3
  | 0x20 => .state 0
  | 0x24 => .state 1
  | 0x28 => .state 2
  | 0x2C => .state 3
  | 0x30 => .lenLo
  | 0x34 => .lenHi
  | 0x38 => .segcntLo
  | 0x3C => .segcntHi
  | 0x40 => .chunk
  | _ => .reserved

/-- The value a read of a register returns (R40 to R49). A read changes nothing (R68). -/
def readReg (r : Reg) (s : State) : Word :=
  match r with
  | .id => idValue
  | .cmd => 0
  | .status => statusWord s
  | .din => s.din
  | .digest k => if s.phase = .done then s.dg[k] else 0
  | .state k => s.ci.h[k]
  | .lenLo => s.ci.len.extractLsb' 0 32
  | .lenHi => s.ci.len.extractLsb' 32 32
  | .segcntLo => s.segcnt.extractLsb' 0 32
  | .segcntHi => s.segcnt.extractLsb' 32 32
  | .chunk => chunkValue
  | .reserved => 0

/-- Acceptance of a command (R34, R190): `PEND <- (c, DIN)`, `BUSY <- 1`. The time to its execution
step is the next free value of CMD_LATENCY (R275; log 2). DESIGN CHOICE (log 2): the value depends
on the engine's own count `accepted` alone, so two instances, or two runs, whose counts are equal
take equally long, which R275 and R246 leave open. -/
def acceptCommand (c : Word) (s : State) : State :=
  { s with
    pend := ⟨c, s.din⟩
    busy := true
    delay := Config.cmdLatency s.accepted
    accepted := s.accepted + 1 }

/-- The effect of a write to a register (R68): CMD issues a command, DIN is set, every other write is
ignored. -/
def writeReg (r : Reg) (v : Word) (s : State) : State :=
  match r with
  | .cmd => acceptCommand v s
  | .din => { s with din := v }
  | .id | .status | .digest _ | .state _ | .lenLo | .lenHi | .segcntLo | .segcntHi | .chunk
  | .reserved => s

/-- Which reads are held while BUSY = 1 (R66): those of DIGEST, STATE, LEN and SEGCNT. No other is (R67;
a read of CMD: log 6). -/
def readHeldWhileBusy : Reg → Bool
  | .digest _ | .state _ | .lenLo | .lenHi | .segcntLo | .segcntHi => true
  | .id | .cmd | .status | .din | .chunk | .reserved => false

/-- Which writes are held while BUSY = 1 (R66): those of CMD. No other is (R67). -/
def writeHeldWhileBusy : Reg → Bool
  | .cmd => true
  | .id | .status | .din | .digest _ | .state _ | .lenLo | .lenHi | .segcntLo | .segcntHi | .chunk
  | .reserved => false

/-- Which defined accesses are held while BUSY = 1 (R66). -/
def heldWhileBusy (r : Reg) : BusOp → Bool
  | .read => readHeldWhileBusy r
  | .write _ => writeHeldWhileBusy r

/-- Only a 32-bit access at an offset that is a multiple of 4 is defined (R63). -/
def BusAccess.isDefined (a : BusAccess) : Bool :=
  match a.size with
  | .bits32 => decide (a.off.toNat % 4 = 0)
  | .bits8 | .bits16 | .wider => false

/-- Whether an access is held in a state (R66). An access that is not defined is answered with a bus
error at once (R63; log 6). -/
def isHeld (a : BusAccess) (s : State) : Bool :=
  s.busy && a.isDefined && heldWhileBusy (regAt a.off) a.op

/-- The bus error response (R63): a read returns the data value 0. -/
def errorReply : BusOp → BusReply
  | .read => .readError 0
  | .write _ => .writeError

/-- An access performed completely (R69, R70): the state after it and the reply. -/
def performAccess (a : BusAccess) (s : State) : State × BusReply :=
  if a.isDefined then
    match a.op with
    | .read => (s, .data (readReg (regAt a.off) s))
    | .write v => (writeReg (regAt a.off) v s, .written)
  else (s, errorReply a.op)

/-- The oldest access of the bus, if it is not held, is performed and answered (R66, R70); a held one
waits, and with no access nothing happens. -/
def busStep (s : State) : State :=
  match s.bus with
  | [] => s
  | a :: rest =>
    if isHeld a s then s
    else
      let done := performAccess a { s with bus := rest }
      { done.1 with replies := s.replies ++ [done.2] }

/-- The host issues an access: it arrives after those issued before it (R70). An input of the machine,
between two steps (log 1). -/
def State.issue (a : BusAccess) (s : State) : State := { s with bus := s.bus ++ [a] }

end Sys2Proof.Machine
end

