-- ==== Sys2Proof/Machine/Execution.lean ====
section
/-! DEFINITION. The execution step (42_commands.md R190), the reset input (R260), and one step of the
machine made of them. -/

namespace Sys2Proof.Machine

/-- `Execute(PEND.cmd, PEND.din)` (R190): an illegal word raises ILLEGAL_CMD (R231) before anything
else is looked at (R239). -/
def executePending (s : State) : Host.Outcome State Fault Refusal :=
  match decode s.pend.cmd with
  | .ok i => exec i s
  | .error _ => .next (raiseError .illegalCmd s)

/-- `BUSY <- 0`, whether or not Execute raised (R190). -/
def clearBusy : Host.Outcome State Fault Refusal → Host.Outcome State Fault Refusal
  | .next s => .next { s with busy := false }
  | .fault f => .fault f
  | .refused r => .refused r

/-- The execution step (R190): atomic, always enabled while BUSY = 1. -/
def executionStep (s : State) : Host.Outcome State Fault Refusal := clearBusy (executePending s)

/-- What the reset input does while it is asserted (R260): every state of R50 at its reset value, a pending command discarded
unexecuted, a held access released with no effect (what stays of the bus: log 4). -/
def resetStep (s : State) : State :=
  match s.bus with
  | [] => clearEngine s
  | a :: rest =>
    if isHeld a s then { clearEngine s with bus := rest, replies := s.replies ++ [.released] }
    else clearEngine s

/-- The platform drives the reset input (R260), an input of the machine between two steps. DESIGN
CHOICE (log 4): reset acts the moment the input is asserted, not only at the next step, and again
when it is released ("While reset is asserted, and when it is released"), so that an assertion
with no step under it resets all the same. Driving a released input to released does nothing. -/
def State.driveReset (level : Bool) (s : State) : State :=
  { (if level || s.resetIn then resetStep s else s) with resetIn := level }

/-- One step of the machine: the reset input first; then, while a command is pending, either its
execution step or, as long as its latency lasts, what the bus brings (R66, R67, R190); else what
the bus brings (log 3). -/
def machineStep (s : State) : Host.Outcome State Fault Refusal :=
  if s.resetIn then .next (resetStep s)
  else if s.busy then
    match s.delay with
    | 0 => executionStep s
    | d + 1 => .next (busStep { s with delay := d })
  else .next (busStep s)

/-- The command word `c` accepted with the present DIN (R34), its latency over and the reset input
released, so that the next step is its execution step (log 5). -/
def placeCommand (c : Word) (s : State) : State :=
  { s with pend := ⟨c, s.din⟩, busy := true, delay := 0, resetIn := false }

end Sys2Proof.Machine
end

