-- ==== Sys2Proof/Machine/Step.lean ====
section
/-! DEFINITION. The step function, and where it takes its next command from. -/

namespace Sys2Proof.Machine

/-- One step: an execution step of the engine (R190), one host access or a moment of waiting (R66,
R70), or reset (R260). See `machineStep`. -/
def step (s : State) : Host.Outcome State Fault Refusal := machineStep s

/-- `s` with the command word of `nbits` bits `w` placed where `step` takes its next command: PEND
(R34). The engine fetches nothing (R62): a command comes to run by the host's write to CMD, and
this stands for such a write, accepted and due (log 5). -/
def State.withFetchWord (s : State) (nbits w : Nat) : State :=
  placeCommand (BitVec.ofNat 32 (w % 2 ^ nbits)) s

end Sys2Proof.Machine
end

