-- ==== Sys2Proof/Machine/HostProgram.lean ====
section
/-! DEFINITION. What a host issues (30_encoding.md R97, R98): the bus operations W and R, the commands,
and the pseudo-instructions PUSH, DIGEST and WAIT. The machine does not use them. -/

namespace Sys2Proof.Machine

/-- `W off, v` (R97): a 32-bit write. -/
def busWrite (off : BitVec 7) (v : Word) : BusAccess := ⟨off, .bits32, .write v⟩

/-- `R off` (R97): a 32-bit read. -/
def busRead (off : BitVec 7) : BusAccess := ⟨off, .bits32, .read⟩

/-- A command written by its mnemonic (R97): `W 0x04, <word>`. -/
def commandAccess (i : Instr) : BusAccess := busWrite 0x04 (encode i)

/-- `PUSH b0 [b1 [b2 [b3]]]` (R98): the bytes to DIN, then an ABSORB of as many. -/
def push (bs : List Byte) : List BusAccess :=
  [busWrite 0x0C (dinOfBytes bs), commandAccess (.absorb bs.length)]

/-- `DIGEST -> d` (R98). -/
def digestReads : List BusAccess := [busRead 0x10, busRead 0x14, busRead 0x18, busRead 0x1C]

/-- The host program that computes a digest of a message given in pieces (R200, R201): an INIT, a PUSH
for each piece, FINAL, DIGEST. -/
def digestProgram (init : Instr) (pieces : List (List Byte)) : List BusAccess :=
  commandAccess init :: (pieces.map push).flatten ++ commandAccess .final :: digestReads

/-- A message cut into the pieces of 1 to 4 bytes that ABSORB can carry (R199). -/
abbrev GoodPieces (pieces : List (List Byte)) : Prop := ∀ p ∈ pieces, 1 ≤ p.length ∧ p.length ≤ 4

/-- Executing an ABSORB for each piece in order, each with its bytes captured in PEND (R34, R94): the
execution steps alone, without the bus. -/
def absorbPieces : List (List Byte) → State → Host.Outcome State Fault Refusal
  | [], s => .next s
  | p :: ps, s =>
    match exec (.absorb p.length) { s with pend := ⟨encode (.absorb p.length), dinOfBytes p⟩ } with
    | .next t => absorbPieces ps t
    | .fault f => .fault f
    | .refused r => .refused r

/-- `n` steps of the machine. -/
def runSteps (n : Nat) (s : State) : Host.Outcome State Fault Refusal := Sys2Proof.core.run n s

/-- The host issues some accesses, in order. -/
def State.issueAll (accesses : List BusAccess) (s : State) : State :=
  accesses.foldl (fun s a => s.issue a) s

/-- A run with the host at work: a step for each element of the list, before which the host issues that
element's accesses. -/
def runIssuing : List (List BusAccess) → State → Host.Outcome State Fault Refusal
  | [], s => .next s
  | accesses :: later, s =>
    match step (s.issueAll accesses) with
    | .next t => runIssuing later t
    | .fault f => .fault f
    | .refused r => .refused r

/-- The host lets the machine step until reply number `k` (counted from 0) has come, and is a data word:
that word, and the machine then. `steps` is how many steps it may take at most. -/
def awaitData : Nat → Nat → State → Option (Word × State)
  | steps, k, s =>
    match s.replies[k]? with
    | some (.data v) => some (v, s)
    | some _ => none
    | none =>
      match steps with
      | 0 => none
      | steps + 1 =>
        match step s with
        | .next t => awaitData steps k t
        | .fault _ => none
        | .refused _ => none

/-- `R 0x08 -> s`, the host waiting for the answer. The read is issued behind the accesses that are still
on the bus (R70), each of which has one reply before it, so it may be issued at any time: also
right after a CMD write, which need not have been accepted yet.
DESIGN CHOICE (log 1, safe): the spec does not say what else may be issued during WAIT; here nothing is
issued between this read and its answer. -/
def readStatus (steps : Nat) (s : State) : Option (Word × State) :=
  awaitData steps (s.replies.length + s.bus.length) (s.issue (busRead 0x08))

/-- `WAIT` (R98): `loop: R 0x08 -> s; if s[0] = 1 goto loop`, whatever is on the bus when it starts. The
STATUS word that ended the loop, and the machine then. The loop itself has no bound: `turns` and
`steps` (for each turn) only make the definition structural. -/
def waitLoop (steps : Nat) : Nat → State → Option (Word × State)
  | 0, _ => none
  | turns + 1, s =>
    match readStatus steps s with
    | some (v, t) => if v.getLsbD 0 then waitLoop steps turns t else some (v, t)
    | none => none

end Sys2Proof.Machine
end

