-- ==== Sys2Proof/Machine/Platform.lean ====
section
/-! DEFINITION. The platform around the engine (60_exceptions.md R246; 20_memory.md R60, R62): instances
at their base addresses, the decoding of an address to a window, one instance's step. ENGINE_BASE
and NUM_ENGINES are the platform's own data (R10). -/

namespace Sys2Proof.Machine

/-- An engine and the byte address of its window (R60 ENGINE_BASE). -/
structure Window where
  base : Nat
  engine : State
  deriving DecidableEq, Repr

/-- The instances of a platform (R246); their number is NUM_ENGINES (R10). -/
structure Platform where
  windows : List Window
  deriving DecidableEq, Repr

/-- R10, R60, R246: at least one instance, every base a multiple of 128, each with a window of its
own. -/
abbrev Platform.WellFormed (p : Platform) : Prop :=
  p.windows ≠ [] ∧ (∀ w ∈ p.windows, w.base % 128 = 0) ∧ (p.windows.map Window.base).Nodup

/-- Whether an address lies in a window: `address − ENGINE_BASE` in [0, 127] (R60). -/
def Window.contains (w : Window) (addr : Nat) : Bool := decide (w.base ≤ addr ∧ addr < w.base + 128)

/-- `off = address − ENGINE_BASE` (R60). -/
def Window.offset (w : Window) (addr : Nat) : BitVec 7 := BitVec.ofNat 7 (addr - w.base)

/-- A host access at a byte address: issued to the instance whose window holds the address. Outside
every window it is the platform's affair, refused (R62; U15; log 10). -/
def Platform.access (addr : Nat) (size : AccessSize) (op : BusOp) (p : Platform) :
    Host.Outcome Platform Fault Refusal :=
  match p.windows.findIdx? (·.contains addr) with
  | some k =>
    .next ⟨p.windows.modify k fun w => { w with engine := w.engine.issue ⟨w.offset addr, size, op⟩ }⟩
  | none => .refused .outsideWindow

/-- A step of instance `k` (R246: the instances share nothing). Which instance steps next is the
platform's affair (log 11). -/
def Platform.stepAt (p : Platform) (k : Fin p.windows.length) : Host.Outcome Platform Fault Refusal :=
  match step p.windows[k].engine with
  | .next t => .next ⟨p.windows.set k { p.windows[k] with engine := t }⟩
  | .fault f => .fault f
  | .refused r => .refused r

end Sys2Proof.Machine
end

