-- ==== Sys2Proof/Machine/Reference.lean ====
section
/-! DEFINITION. The source's two functions over a whole message: `md4_digest` (40_md4_engine.md R110)
and `ed2k_digest` (41_ed2k_chunker.md R160). The machine does not call them: they are what its
streaming form is compared with (R136, R172). -/

namespace Sys2Proof.Machine

/-- Block `q` of a byte sequence: bytes 64q to 64q + 63 (R110, R111). -/
def blockAt (p : List Byte) (q : Nat) : Block := Vector.ofFn fun i => p.getD (64 * q + i.val) 0

/-- The hash state after compressing the first `n` blocks of `p`, in order, from `h` (R110). -/
def hashBlocks (h : HashWords) (p : List Byte) (n : Nat) : HashWords :=
  (List.range n).foldl (fun h q => compress h (blockAt p q)) h

/-- The final hash state of `md4_digest(m)` (R110), before Serialize. -/
def md4Words (m : List Byte) : HashWords :=
  let p := m ++ pad m.length
  hashBlocks iv p (p.length / 64)

/-- `md4_digest(m)` (R110), for messages of at most LEN_MAX bytes. -/
def md4Digest (m : List Byte) : List Byte := serialize (md4Words m)

/-- N = ceil(L / CHUNK_SIZE), the number of segments (R160, R161). -/
def segmentCount (len : Nat) : Nat := (len + (chunkSize - 1)) / chunkSize

/-- Segment `s` of `m` (R161): `m[s·CHUNK_SIZE : min((s+1)·CHUNK_SIZE, L)]`. -/
def segmentAt (m : List Byte) (s : Nat) : List Byte := (m.drop (s * chunkSize)).take chunkSize

/-- The intermediate buffer `d_0 ‖ … ‖ d_{N−1}` (R163). -/
def segmentDigests (m : List Byte) : List Byte :=
  ((List.range (segmentCount m.length)).map fun s => md4Digest (segmentAt m s)).flatten

/-- `ed2k_digest(m)` (R160): with exactly one segment the buffer itself, else a second MD4 pass (R164). -/
def ed2kDigest (m : List Byte) : List Byte :=
  if 0 < m.length ∧ m.length ≤ chunkSize then segmentDigests m else md4Digest (segmentDigests m)

end Sys2Proof.Machine
end

