-- ==== Sys2Proof/Safety.lean ====
section
/-! DEFINITION. What a safe state is, in the terms the statements use: the legal combinations of R35,
and the bounds of the counters (R12, R132, R170). -/

namespace Sys2Proof.Machine

/-- The legal combinations between engine steps, as R35 lists them. -/
abbrev State.Legal (s : State) : Prop :=
  (s.phase = .idle →
    s.mode = .none ∧ s.errcode = .none ∧ s.segcnt = 0 ∧ s.dg = Vector.replicate 4 0) ∧
  (s.phase = .active ∨ s.phase = .done → (s.mode = .md4 ∨ s.mode = .ed2k) ∧ s.errcode = .none) ∧
  (s.phase = .error →
    s.errcode = .illegalCmd ∨ s.errcode = .sequence ∨ s.errcode = .lengthOverflow) ∧
  (s.mode = .ed2k ∧ s.phase = .active → s.ci.len.toNat < chunkSize) ∧
  (s.mode = .md4 → s.segcnt = 0 ∧ s.seg0 = Vector.replicate 4 0 ∧ s.co = Context.zero)

/-- No counter passes its bound (R12): LEN of the inner context at most LEN_MAX (R132), SEGCNT at most
2^57 − 1 (R170), and in ED2K mode the outer context holds the 16 bytes of each closed segment, so
that it cannot overflow (R170). -/
abbrev State.Bounded (s : State) : Prop :=
  s.ci.len.toNat ≤ lenMax ∧ s.segcnt.toNat ≤ segMax ∧
  (s.mode = .ed2k → s.co.len.toNat = 16 * s.segcnt.toNat)

/-- A safe state: legal and bounded. -/
abbrev State.Safe (s : State) : Prop := s.Legal ∧ s.Bounded

end Sys2Proof.Machine
end

