-- ==== Sys2Proof/Certificates/Slice0/Obligations.lean ====
section
/-! DEFINITION. The statements about the engine, for the provers. Each docstring names the rules it
comes from. The model's own fields (resetIn, delay, accepted, bus, replies) are those of logs 1, 2
and 4; where a statement speaks of steps, their order is that of log 3. -/

open Sys2Proof Sys2Proof.Machine

/-! ## Command words -/

/-- R91 to R93, R97: the eight legal words and one illegal word of each kind, written out from the format
of R90. -/
def Obligations.SampleWordsDecode : Prop :=
  decode 0x00000001 = .ok .md4Init ∧ decode 0x00000002 = .ok .ed2kInit ∧
  decode 0x00000003 = .ok (.absorb 1) ∧ decode 0x00000013 = .ok (.absorb 2) ∧
  decode 0x00000023 = .ok (.absorb 3) ∧ decode 0x00000033 = .ok (.absorb 4) ∧
  decode 0x00000004 = .ok .final ∧ decode 0x00000005 = .ok .clear ∧
  decode 0x00000006 = .error .reservedOp ∧ decode 0x00000043 = .error .nonzeroRsv ∧
  decode 0x00000012 = .error .nonzeroNbm1

/-- R92: a word is legal iff its three fields are as listed, and the legal words are exactly eight. -/
def Obligations.LegalWordsAreExactlyEight : Prop :=
  ∀ c : Word,
    (legalWord c = true ↔
      c.extractLsb' 0 4 ∈ [0x1, 0x2, 0x3, 0x4, (0x5 : BitVec 4)] ∧
      c.extractLsb' 6 26 = (0 : BitVec 26) ∧
      (c.extractLsb' 0 4 = (0x3 : BitVec 4) ∨ c.extractLsb' 4 2 = (0 : BitVec 2))) ∧
    (legalWord c = true ↔
      c ∈ [0x00000001, 0x00000002, 0x00000003, 0x00000013, 0x00000023, 0x00000033, 0x00000004,
        (0x00000005 : Word)])

/-- R93: the decoder agrees with the table of match and mask; its rows are pairwise disjoint and
together cover exactly the legal words; NBM1 of an ABSORB is bits [5:4]. -/
def Obligations.MatchMaskTableAgrees : Prop :=
  commandTable.map (fun r => (r.pattern, r.mask)) =
    [(0x00000001, 0xFFFFFFFF), (0x00000002, 0xFFFFFFFF), (0x00000003, 0xFFFFFFCF),
     (0x00000004, 0xFFFFFFFF), (0x00000005, 0xFFFFFFFF)] ∧
  ∀ c : Word,
    (∀ r ∈ commandTable,
      c &&& r.mask = r.pattern ↔ ∃ i, decode c = .ok i ∧ i.mnemonic = r.mnemonic) ∧
    (∀ nb, decode c = .ok (.absorb nb) → nb = (c.extractLsb' 4 2).toNat + 1) ∧
    commandTable.Pairwise (fun r q => ¬ (c &&& r.mask = r.pattern ∧ c &&& q.mask = q.pattern)) ∧
    (legalWord c = true ↔ ∃ r ∈ commandTable, c &&& r.mask = r.pattern)

/-- R93, R97: decoding and encoding are inverse. A word decodes to an instruction iff the instruction is
well-formed and the word is its encoding, for all 2^32 words and every operand. -/
def Obligations.DecodeEncodeAgree : Prop :=
  ∀ (c : Word) (i : Instr), decode c = .ok i ↔ i.WellFormed ∧ encode i = c

/-! ## The register window -/

/-- R40, R48: ID and CHUNK read their constants in every state, and writes to them are ignored. -/
def Obligations.IdAndChunkAreConstant : Prop :=
  ∀ (s : State) (v : Word),
    performAccess (busRead 0x00) s = (s, .data 0x4D443401) ∧
    performAccess (busWrite 0x00 v) s = (s, .written) ∧
    performAccess (busRead 0x40) s = (s, .data 0x00947000) ∧
    performAccess (busWrite 0x40 v) s = (s, .written) ∧
    isHeld (busRead 0x00) s = false ∧ isHeld (busRead 0x40) s = false

/-- R42, R31 to R33: the fields of STATUS, its reserved bits 0; a read never stalls; a write is ignored;
a pending command shows as BUSY = 1 with the other fields as before it. -/
def Obligations.StatusFields : Prop :=
  ∀ (s : State) (v : Word), ∃ w : Word,
    performAccess (busRead 0x08) s = (s, .data w) ∧ isHeld (busRead 0x08) s = false ∧
    performAccess (busWrite 0x08 v) s = (s, .written) ∧
    w.getLsbD 0 = s.busy ∧
    w.extractLsb' 1 2 =
      (match s.phase with | .idle => 0 | .active => 1 | .done => 2 | .error => (3 : BitVec 2)) ∧
    w.extractLsb' 3 1 = (0 : BitVec 1) ∧
    w.extractLsb' 4 2 = (match s.mode with | .none => 0 | .md4 => 1 | .ed2k => (2 : BitVec 2)) ∧
    w.extractLsb' 6 2 = (0 : BitVec 2) ∧
    w.extractLsb' 8 4 =
      (match s.errcode with
       | .none => 0 | .illegalCmd => 1 | .sequence => 2 | .lengthOverflow => (3 : BitVec 4)) ∧
    w.extractLsb' 12 20 = (0 : BitVec 20) ∧
    (∀ c, statusWord (acceptCommand c s) = statusWord s ||| 1) ∧
    statusWord State.reset = 0

/-- R44, R45, R47 (and R46): what the result registers read, and that a read of one is held exactly while
BUSY = 1; digest byte 4k + i is bits [8i+7 : 8i] of DIGESTk in DONE (R16). -/
def Obligations.ResultRegistersRead : Prop :=
  (∀ (s : State) (k : Fin 4) (off : BitVec 7), off.toNat = 0x10 + 4 * k.val →
    performAccess (busRead off) s = (s, .data (if s.phase = .done then s.dg[k] else 0)) ∧
    isHeld (busRead off) s = s.busy ∧
    ∀ i < 4, (serialize s.dg)[4 * k.val + i]? = some (s.dg[k].extractLsb' (8 * i) 8)) ∧
  (∀ (s : State) (k : Fin 4) (off : BitVec 7), off.toNat = 0x20 + 4 * k.val →
    performAccess (busRead off) s = (s, .data s.ci.h[k]) ∧ isHeld (busRead off) s = s.busy) ∧
  (∀ s : State,
    performAccess (busRead 0x30) s = (s, .data (s.ci.len.extractLsb' 0 32)) ∧
    performAccess (busRead 0x34) s = (s, .data (s.ci.len.extractLsb' 32 32)) ∧
    performAccess (busRead 0x38) s = (s, .data (s.segcnt.extractLsb' 0 32)) ∧
    performAccess (busRead 0x3C) s = (s, .data (s.segcnt.extractLsb' 32 32)) ∧
    isHeld (busRead 0x30) s = s.busy ∧ isHeld (busRead 0x34) s = s.busy ∧
    isHeld (busRead 0x38) s = s.busy ∧ isHeld (busRead 0x3C) s = s.busy)

/-- R49: reserved offsets read 0, ignore writes and never stall. -/
def Obligations.ReservedOffsets : Prop :=
  ∀ (s : State) (v : Word) (off : BitVec 7), off.toNat % 4 = 0 → 0x44 ≤ off.toNat →
    performAccess (busRead off) s = (s, .data 0) ∧ performAccess (busWrite off v) s = (s, .written) ∧
    isHeld (busRead off) s = false ∧ isHeld (busWrite off v) s = false

/-- R63: an access that is not 32 bits wide or not at a multiple of 4 is answered at once with a bus
error, data 0 for a read, and no engine state changes; it is never split. (That it is not held
while BUSY = 1 is DEDUCED: log 6.) -/
def Obligations.UndefinedAccessGetsBusError : Prop :=
  ∀ (s : State) (a : BusAccess) (rest : List BusAccess),
    a.size ≠ .bits32 ∨ a.off.toNat % 4 ≠ 0 → s.bus = a :: rest →
    busStep s = { s with
      bus := rest
      replies := s.replies ++ [match a.op with | .read => .readError 0 | .write _ => .writeError] }

/-- R66, R67, R70: the accesses that are held, and only while BUSY = 1; a held access changes nothing, and
any other is taken off the bus, performed and answered at once. (A read of CMD is not held: log 6.) -/
def Obligations.HeldAccesses : Prop :=
  ∀ (s : State) (a : BusAccess) (rest : List BusAccess), s.bus = a :: rest →
    a.size = .bits32 → a.off.toNat % 4 = 0 →
    (isHeld a s = true ↔
      s.busy = true ∧
        ((a.off = 0x04 ∧ ∃ v, a.op = .write v) ∨
         (0x10 ≤ a.off.toNat ∧ a.off.toNat ≤ 0x3C ∧ a.op = .read))) ∧
    (isHeld a s = true → busStep s = s) ∧
    (isHeld a s = false →
      busStep s = { (performAccess a { s with bus := rest }).1 with
        replies := s.replies ++ [(performAccess a { s with bus := rest }).2] } ∧
      (busStep s).bus = rest)

/-- R68, R43: a read answers the register's value and changes nothing; DIN reads its value; a write to DIN
changes only DIN, and a bus read then returns it; a write to CMD accepts a command (R34: PEND takes
the word and DIN, BUSY is set, nothing else of the engine changes); every other write is ignored. -/
def Obligations.AccessEffects : Prop :=
  ∀ (s : State) (v : Word) (off : BitVec 7), off.toNat % 4 = 0 →
    performAccess (busRead off) s = (s, .data (readReg (regAt off) s)) ∧
    (off = 0x0C → performAccess (busRead off) s = (s, .data s.din) ∧
      performAccess (busWrite off v) s = ({ s with din := v }, .written) ∧
      performAccess (busRead off) { s with din := v } = ({ s with din := v }, .data v)) ∧
    (off = 0x04 → ∃ d n, performAccess (busWrite off v) s =
      ({ s with pend := ⟨v, s.din⟩, busy := true, delay := d, accepted := n }, .written) ∧
      performAccess (busRead off) s = (s, .data 0)) ∧
    (off ≠ 0x0C → off ≠ 0x04 → performAccess (busWrite off v) s = (s, .written))

/-- R73, R270: a DIN write after the acceptance of a command does not alter the pending command. -/
def Obligations.LaterDinWriteLeavesPending : Prop :=
  ∀ (s : State) (c v : Word) (rest : List BusAccess), s.busy = false →
    s.bus = busWrite 0x04 c :: busWrite 0x0C v :: rest →
    (busStep s).pend = ⟨c, s.din⟩ ∧ (busStep s).busy = true ∧
    (busStep (busStep s)).pend = ⟨c, s.din⟩ ∧ (busStep (busStep s)).din = v ∧
    (busStep (busStep s)).bus = rest

/-! ## Steps -/

/-- R190: with a legal command pending and due, a step is `Execute` of the decoded command, after which
BUSY is cleared. -/
def Obligations.StepRunsPendingCommand : Prop :=
  ∀ (s : State) (i : Instr), s.resetIn = false → s.busy = true → s.delay = 0 →
    decode s.pend.cmd = .ok i →
    step s = (match exec i s with
      | .next t => .next { t with busy := false }
      | .fault f => .fault f
      | .refused r => .refused r)

/-- R231, R96, R236: a word is illegal for one of three reasons, and its execution raises ILLEGAL_CMD in
every phase; in ERROR it changes nothing; only PHASE, ERRCODE (and BUSY) change. -/
def Obligations.IllegalWordRaises : Prop :=
  ∀ s : State, s.resetIn = false → s.busy = true → s.delay = 0 →
    (s.pend.cmd.extractLsb' 0 4 ∉ [0x1, 0x2, 0x3, 0x4, (0x5 : BitVec 4)] ∨
      s.pend.cmd.extractLsb' 6 26 ≠ (0 : BitVec 26) ∨
      (s.pend.cmd.extractLsb' 4 2 ≠ (0 : BitVec 2) ∧ s.pend.cmd.extractLsb' 0 4 ≠ (0x3 : BitVec 4))) →
    step s = .next { s with
      phase := .error
      errcode := if s.phase = .error then s.errcode else .illegalCmd
      busy := false }

/-- R66, R67, R190: while no command is due, a step is what the bus brings (log 3). -/
def Obligations.StepAnswersTheBus : Prop :=
  ∀ s : State, s.resetIn = false →
    (s.busy = false → step s = .next (busStep s)) ∧
    (∀ d, s.busy = true → s.delay = d + 1 → step s = .next (busStep { s with delay := d }))

/-- The machine never stops: every step has a next state, whatever the state. That no step stops is the
model's deduction (DEDUCED, log 13) from R236, where every error is a state, R63, where a bus error
is an answer, and R230. -/
def Obligations.StepAlwaysAnswers : Prop := ∀ s : State, ∃ t, step s = .next t

/-- R66 to R68, R195: only an execution step (and reset) touches a computation. Any other step leaves
PHASE, MODE, ERRCODE, DG, CI, CO, SEGCNT and SEG0 as they were, and a pending command with it (R73).
And message bytes enter by ABSORB only: the execution step of any other word, legal or not, takes
nothing from the DIN value in PEND, nor from DIN. -/
def Obligations.OnlyExecutionTouchesComputation : Prop :=
  (∀ s t : State, s.resetIn = false → ¬ (s.busy = true ∧ s.delay = 0) → step s = .next t →
    t.phase = s.phase ∧ t.mode = s.mode ∧ t.errcode = s.errcode ∧ t.dg = s.dg ∧ t.ci = s.ci ∧
    t.co = s.co ∧ t.segcnt = s.segcnt ∧ t.seg0 = s.seg0 ∧ t.resetIn = false ∧
    (s.busy = true → t.busy = true ∧ t.pend = s.pend)) ∧
  (∀ (s : State) (d e : Word), (∀ nb, decode s.pend.cmd ≠ .ok (.absorb nb)) →
    ∃ t u, executionStep s = .next t ∧
      executionStep { s with pend := ⟨s.pend.cmd, d⟩, din := e } = .next u ∧
      { u with pend := t.pend, din := t.din } = t)

/-- R190, R275: a pending command is eventually executed, whatever the host does meanwhile. Let the host
issue any accesses before each step of the latency: after it the command is pending still, with the
computation untouched; and whatever the host issues then, the next step executes the command and
clears BUSY. A run without the host is the case where it issues nothing. -/
def Obligations.PendingCommandExecutes : Prop :=
  ∀ s : State, s.resetIn = false → s.busy = true →
    (∀ inputs : List (List BusAccess), inputs.length = s.delay →
      ∃ t, runIssuing inputs s = .next t ∧ t.busy = true ∧ t.delay = 0 ∧ t.pend = s.pend ∧
        t.phase = s.phase ∧ t.mode = s.mode ∧ t.errcode = s.errcode ∧ t.dg = s.dg ∧ t.ci = s.ci ∧
        t.co = s.co ∧ t.segcnt = s.segcnt ∧ t.seg0 = s.seg0 ∧
        ∀ last : List BusAccess, ∃ u, executionStep (t.issueAll last) = .next u ∧ u.busy = false ∧
          runIssuing (inputs ++ [last]) s = .next u) ∧
    (∀ n, runSteps n s = runIssuing (List.replicate n []) s)

/-- R66, R272: a held read of a result register is answered after the pending command has executed, with
the value of the state after it. -/
def Obligations.HeldReadSeesTheExecutedCommand : Prop :=
  ∀ (s : State) (off : BitVec 7) (rest : List BusAccess), s.resetIn = false →
    s.bus = busRead off :: rest → isHeld (busRead off) s = true →
    ∃ u t, runSteps (s.delay + 1) s = .next u ∧ u.bus = s.bus ∧ u.busy = false ∧
      runSteps (s.delay + 2) s = .next t ∧ t.bus = rest ∧
      t.replies = s.replies ++ [.data (readReg (regAt off) u)]

/-- R98, R271: WAIT ends, whatever is on the bus when it starts (a CMD write not yet accepted among it).
The accesses issued before it are then answered and no command is pending, and the STATUS word it
ends with has BUSY = 0 and is that of the machine then. -/
def Obligations.WaitLoopEnds : Prop :=
  ∀ s : State, s.resetIn = false →
    ∃ steps turns v t, waitLoop steps turns s = some (v, t) ∧ v.getLsbD 0 = false ∧
      t.busy = false ∧ t.bus = [] ∧ s.replies.length + s.bus.length < t.replies.length ∧
      v = statusWord t

/-! ## Reset -/

/-- R50: the reset value of every piece of state. -/
def Obligations.ResetValues : Prop :=
  State.reset.phase = .idle ∧ State.reset.mode = .none ∧ State.reset.errcode = .none ∧
  State.reset.busy = false ∧ State.reset.pend = ⟨0, 0⟩ ∧ State.reset.din = 0 ∧
  State.reset.dg = #v[0, 0, 0, 0] ∧
  State.reset.ci = ⟨#v[0, 0, 0, 0], Vector.replicate 64 0, 0⟩ ∧
  State.reset.co = ⟨#v[0, 0, 0, 0], Vector.replicate 64 0, 0⟩ ∧
  State.reset.segcnt = 0 ∧ State.reset.seg0 = #v[0, 0, 0, 0]

/-- R260: reset, acting while the reset input is asserted and when it is released. Driving the input to
asserted, or an asserted one to released, gives every state of R50 its reset value from any state; a
pending command is discarded; a held access is released with no effect; STATUS reads 0, ID and CHUNK
their constants, and the engine is ready to accept a command at once. A step with the input asserted
does the same. The model's own choices (log 4): reset acts the moment the input is driven, and
accesses that are not held stay issued. -/
def Obligations.ResetInputResets : Prop :=
  ∀ s : State,
    (s.resetIn = true → step s = .next (s.driveReset true)) ∧
    (s.resetIn = false → s.driveReset false = s) ∧
    ∀ level : Bool, level = true ∨ s.resetIn = true → ∃ t, t = s.driveReset level ∧
      t = { State.reset with
            resetIn := level, accepted := s.accepted, bus := t.bus, replies := t.replies } ∧
      (s.bus = [] → t.bus = [] ∧ t.replies = s.replies) ∧
      (∀ a rest, s.bus = a :: rest →
        (isHeld a s = true → t.bus = rest ∧ t.replies = s.replies ++ [.released]) ∧
        (isHeld a s = false → t.bus = s.bus ∧ t.replies = s.replies)) ∧
      readReg (regAt 0x08) t = 0x00000000 ∧ readReg (regAt 0x00) t = 0x4D443401 ∧
      readReg (regAt 0x40) t = 0x00947000 ∧
      ∀ c, isHeld (busWrite 0x04 c) t = false

/-! ## The commands -/

/-- R192: MD4_INIT, in every phase: what it writes (with the STATUS it leaves once BUSY is cleared) and
that it writes nothing else. -/
def Obligations.Md4InitStarts : Prop :=
  encode .md4Init = 0x00000001 ∧
  ∀ s : State, ∃ t, exec .md4Init s = .next t ∧
    t.ci = ⟨#v[0x67452301, 0xEFCDAB89, 0x98BADCFE, 0x10325476], Vector.replicate 64 0, 0⟩ ∧
    t.co = ⟨#v[0, 0, 0, 0], Vector.replicate 64 0, 0⟩ ∧
    t.segcnt = 0 ∧ t.seg0 = #v[0, 0, 0, 0] ∧ t.dg = #v[0, 0, 0, 0] ∧
    t.mode = .md4 ∧ t.errcode = .none ∧ t.phase = .active ∧
    statusWord { t with busy := false } = 0x00000012 ∧
    t.busy = s.busy ∧ t.pend = s.pend ∧ t.din = s.din ∧ t.resetIn = s.resetIn ∧ t.delay = s.delay ∧
    t.accepted = s.accepted ∧ t.bus = s.bus ∧ t.replies = s.replies

/-- R193, R169: ED2K_INIT, in every phase: what it writes and that it writes nothing else. -/
def Obligations.Ed2kInitStarts : Prop :=
  encode .ed2kInit = 0x00000002 ∧
  ∀ s : State, ∃ t, exec .ed2kInit s = .next t ∧
    t.ci = ⟨#v[0x67452301, 0xEFCDAB89, 0x98BADCFE, 0x10325476], Vector.replicate 64 0, 0⟩ ∧
    t.co = ⟨#v[0x67452301, 0xEFCDAB89, 0x98BADCFE, 0x10325476], Vector.replicate 64 0, 0⟩ ∧
    t.segcnt = 0 ∧ t.seg0 = #v[0, 0, 0, 0] ∧ t.dg = #v[0, 0, 0, 0] ∧
    t.mode = .ed2k ∧ t.errcode = .none ∧ t.phase = .active ∧
    statusWord { t with busy := false } = 0x00000022 ∧
    t.busy = s.busy ∧ t.pend = s.pend ∧ t.din = s.din ∧ t.resetIn = s.resetIn ∧ t.delay = s.delay ∧
    t.accepted = s.accepted ∧ t.bus = s.bus ∧ t.replies = s.replies

/-- R198, R51: CLEAR, in every phase, sets every state of R50 to its reset value, so that no register
read tells it from reset. What the host side holds stays. -/
def Obligations.ClearIsReset : Prop :=
  encode .clear = 0x00000005 ∧
  ∀ s : State, ∃ t, exec .clear s = .next t ∧
    t = { State.reset with
          resetIn := s.resetIn, accepted := s.accepted, bus := s.bus, replies := s.replies } ∧
    (∀ off : BitVec 7, readReg (regAt off) t = readReg (regAt off) State.reset) ∧
    statusWord t = 0x00000000

/-- R191, R232: ABSORB and FINAL raise SEQUENCE in IDLE and DONE, with no other state changed and DIGEST
reading 0 from then on, and are ignored in ERROR. -/
def Obligations.PhaseGuard : Prop :=
  ∀ (s : State) (i : Instr), i = .final ∨ (∃ nb, i = .absorb nb ∧ i.WellFormed) →
    (s.phase = .error → exec i s = .next s) ∧
    (s.phase = .idle ∨ s.phase = .done →
      exec i s = .next { s with phase := .error, errcode := .sequence } ∧
      ∀ k, readReg (.digest k) { s with phase := .error, errcode := .sequence } = 0)

/-- R194, R195, R132 in MD4 mode: ABSORB completes, absorbing its bytes in lane order into CI, and writes
nothing else. -/
def Obligations.AbsorbInMd4Mode : Prop :=
  ∀ (s : State) (nb : Nat), 1 ≤ nb → nb ≤ 4 → s.phase = .active → s.mode = .md4 →
    s.ci.len.toNat + nb ≤ lenMax →
    ∃ c, ((List.range nb).map fun t => s.pend.din.extractLsb' (8 * t) 8).foldlM md4Absorb s.ci
        = some c ∧
      c.len.toNat = s.ci.len.toNat + nb ∧
      exec (.absorb nb) s = .next { s with ci := c }

/-- R194, R233, R235 in MD4 mode: at the byte past LEN_MAX an ABSORB raises LENGTH_OVERFLOW; the bytes
before it are absorbed, it and those after it are not. -/
def Obligations.AbsorbOverflowsInMd4Mode : Prop :=
  ∀ (s : State) (nb : Nat), 1 ≤ nb → nb ≤ 4 → s.phase = .active → s.mode = .md4 →
    s.ci.len.toNat ≤ lenMax → lenMax < s.ci.len.toNat + nb →
    ∃ c, ((List.range (lenMax - s.ci.len.toNat)).map fun t =>
        s.pend.din.extractLsb' (8 * t) 8).foldlM md4Absorb s.ci = some c ∧
      c.len.toNat = lenMax ∧
      exec (.absorb nb) s = .next { s with ci := c, phase := .error, errcode := .lengthOverflow }

/-- R194, R171, R170 in ED2K mode, in a state within the bounds of R35 and R170: ABSORB completes. With
fewer bytes than the segment lacks, they are absorbed into CI; else the segment closes at the byte
that fills it and the later bytes start the next one. Nothing else is written. -/
def Obligations.AbsorbInEd2kMode : Prop :=
  ∀ (s : State) (nb : Nat), 1 ≤ nb → nb ≤ 4 → s.phase = .active → s.mode = .ed2k →
    s.ci.len.toNat < 9728000 → s.Bounded →
    let bytes := (List.range nb).map fun t => s.pend.din.extractLsb' (8 * t) 8
    let room := 9728000 - s.ci.len.toNat
    (nb < room → ∃ c, bytes.foldlM md4Absorb s.ci = some c ∧
      c.len.toNat = s.ci.len.toNat + nb ∧
      exec (.absorb nb) s = .next { s with ci := c }) ∧
    (room ≤ nb → s.segcnt.toNat < 2 ^ 57 - 1 → ∃ full next outer,
      (bytes.take room).foldlM md4Absorb s.ci = some full ∧ full.len.toNat = 9728000 ∧
      (serialize (md4Finalize full).h).foldlM md4Absorb s.co = some outer ∧
      outer.len.toNat = s.co.len.toNat + 16 ∧
      (bytes.drop room).foldlM md4Absorb md4Init = some next ∧
      next.len.toNat = nb - room ∧
      exec (.absorb nb) s = .next { s with
        ci := next
        co := outer
        seg0 := if s.segcnt = 0 then (md4Finalize full).h else s.seg0
        segcnt := s.segcnt + 1 })

/-- R233, R170 in ED2K mode: the byte that fills segment number 2^57 is absorbed into CI, and closing that
segment raises LENGTH_OVERFLOW with nothing else written; later bytes are not absorbed. -/
def Obligations.AbsorbOverflowsInEd2kMode : Prop :=
  ∀ (s : State) (nb : Nat), 1 ≤ nb → nb ≤ 4 → s.phase = .active → s.mode = .ed2k →
    s.ci.len.toNat < 9728000 → 9728000 ≤ s.ci.len.toNat + nb → s.segcnt.toNat = 2 ^ 57 - 1 →
    ∃ c, ((List.range (9728000 - s.ci.len.toNat)).map fun t =>
        s.pend.din.extractLsb' (8 * t) 8).foldlM md4Absorb s.ci = some c ∧
      c.len.toNat = 9728000 ∧
      exec (.absorb nb) s = .next { s with ci := c, phase := .error, errcode := .lengthOverflow }

/-- R196, R134 in MD4 mode: FINAL writes DG and CI.H with the final hash state, keeps LEN, enters DONE, and
writes nothing else but CI.BUF. -/
def Obligations.FinalInMd4Mode : Prop :=
  ∀ s : State, s.phase = .active → s.mode = .md4 →
    exec .final s = .next { s with
      ci := md4Finalize s.ci, dg := (md4Finalize s.ci).h, phase := .done } ∧
    (md4Finalize s.ci).len = s.ci.len

/-- R196, R173, R174, R170 in ED2K mode, in a state within the bounds of R170: FINAL closes a segment that
is not empty (and none that is), then selects: with one segment SEG0, else the MD4 of CO. Closing
segment 2^57 raises LENGTH_OVERFLOW, with DG not written. -/
def Obligations.FinalInEd2kMode : Prop :=
  ∀ s : State, s.phase = .active → s.mode = .ed2k → s.Bounded →
    (s.ci.len = 0 → s.segcnt = 1 → exec .final s = .next { s with dg := s.seg0, phase := .done }) ∧
    (s.ci.len = 0 → s.segcnt ≠ 1 →
      exec .final s = .next { s with
        co := md4Finalize s.co, dg := (md4Finalize s.co).h, phase := .done }) ∧
    (s.ci.len ≠ 0 → s.segcnt.toNat < 2 ^ 57 - 1 → ∃ outer,
      (serialize (md4Finalize s.ci).h).foldlM md4Absorb s.co = some outer ∧
      (s.segcnt = 0 → exec .final s = .next { s with
        ci := md4Init, co := outer, segcnt := 1, seg0 := (md4Finalize s.ci).h,
        dg := (md4Finalize s.ci).h, phase := .done }) ∧
      (s.segcnt ≠ 0 → exec .final s = .next { s with
        ci := md4Init, co := md4Finalize outer, segcnt := s.segcnt + 1,
        dg := (md4Finalize outer).h, phase := .done })) ∧
    (s.ci.len ≠ 0 → s.segcnt.toNat = 2 ^ 57 - 1 →
      exec .final s = .next { s with phase := .error, errcode := .lengthOverflow })

/-- R194, R196 (with R29, R32, R141): the frame of ABSORB and FINAL in every state. Neither touches MODE,
BUSY, PEND, DIN or the host side; ABSORB never writes DG; outside ED2K mode neither touches CO,
SEGCNT or SEG0. -/
def Obligations.AbsorbAndFinalFrame : Prop :=
  ∀ (s t : State) (i : Instr), i = .final ∨ (∃ nb, i = .absorb nb ∧ i.WellFormed) →
    exec i s = .next t →
    t.mode = s.mode ∧ t.busy = s.busy ∧ t.pend = s.pend ∧ t.din = s.din ∧ t.resetIn = s.resetIn ∧
    t.delay = s.delay ∧ t.accepted = s.accepted ∧ t.bus = s.bus ∧ t.replies = s.replies ∧
    (i ≠ .final → t.dg = s.dg) ∧
    (s.mode ≠ .ed2k → t.co = s.co ∧ t.segcnt = s.segcnt ∧ t.seg0 = s.seg0)

/-! ## Errors and phases -/

/-- R238, R237, R236: only MD4_INIT, ED2K_INIT, CLEAR and reset leave ERROR, each with ERRCODE 0; as long as
ERROR lasts, no step changes the error code, the mode or anything of the failed computation. -/
def Obligations.OnlyInitClearResetLeaveError : Prop :=
  ∀ s t : State, s.phase = .error → step s = .next t →
    (t.phase ≠ .error → t.errcode = .none ∧
      (s.resetIn = true ∧ t.phase = .idle ∨
       s.busy = true ∧ s.delay = 0 ∧
         (decode s.pend.cmd = .ok .md4Init ∧ t.phase = .active ∨
          decode s.pend.cmd = .ok .ed2kInit ∧ t.phase = .active ∨
          decode s.pend.cmd = .ok .clear ∧ t.phase = .idle))) ∧
    (t.phase = .error →
      t.errcode = s.errcode ∧ t.mode = s.mode ∧ t.dg = s.dg ∧ t.ci = s.ci ∧ t.co = s.co ∧
      t.segcnt = s.segcnt ∧ t.seg0 = s.seg0)

/-- R197, R141: in DONE, a step that is no MD4_INIT, ED2K_INIT, CLEAR or reset changes neither CI nor DG
and leads to DONE or, by an illegal word, ABSORB or FINAL, to ERROR. -/
def Obligations.DigestIsImmutableInDone : Prop :=
  ∀ s t : State, s.phase = .done → s.resetIn = false → step s = .next t →
    ¬ (s.busy = true ∧ s.delay = 0 ∧
        (decode s.pend.cmd = .ok .md4Init ∨ decode s.pend.cmd = .ok .ed2kInit ∨
         decode s.pend.cmd = .ok .clear)) →
    t.ci = s.ci ∧ t.dg = s.dg ∧
    (t.phase = .done ∨ s.busy = true ∧ s.delay = 0 ∧ t.phase = .error)

/-! ## Invariants -/

/-- R35, R50: the reset state is legal and bounded. -/
def Obligations.ResetIsSafe : Prop := State.reset.Safe

/-- R35: the legal combinations hold after every step from a state in which they hold: no command, no
illegal word, no host access and no reset produces any other; and a step that ends in ERROR has
not changed MODE, so that MODE is the value it had when the error was raised. -/
def Obligations.StepKeepsLegalCombinations : Prop :=
  ∀ s t : State, s.Legal → step s = .next t → t.Legal ∧ (t.phase = .error → t.mode = s.mode)

/-- R12, R132, R170: the counters keep their bounds at every step, so that none wraps and the outer context
never overflows. -/
def Obligations.StepKeepsCountersBounded : Prop :=
  ∀ s t : State, s.Bounded → step s = .next t → t.Bounded

/-! ## MD4 -/

/-- R112 to R114: F selects bit by bit, G is the bitwise majority, H the bitwise parity; G and H are
symmetric; and the rules' examples. -/
def Obligations.RoundFunctionsBitwise : Prop :=
  ∀ x y z : Word,
    (∀ i, (roundF x y z).getLsbD i = (if x.getLsbD i then y.getLsbD i else z.getLsbD i)) ∧
    (∀ i, (roundG x y z).getLsbD i = true ↔
      2 ≤ [x.getLsbD i, y.getLsbD i, z.getLsbD i].count true) ∧
    (∀ i, (roundH x y z).getLsbD i = (x.getLsbD i ^^ y.getLsbD i ^^ z.getLsbD i)) ∧
    roundF 0xFFFFFFFF y z = y ∧ roundF 0 y z = z ∧
    roundG x y z = roundG y x z ∧ roundG x y z = roundG x z y ∧
    roundH x y z = roundH y x z ∧ roundH x y z = roundH x z y ∧
    roundF 0xFFFF0000 0xFF00FF00 0xF0F0F0F0 = 0xFF00F0F0 ∧
    roundG 0xFFFF0000 0xFF00FF00 0xF0F0F0F0 = 0xFFF0F000 ∧
    roundH 0xFFFF0000 0xFF00FF00 0xF0F0F0F0 = 0xF00F0FF0

/-- R12, R115: rotl by 1 to 31 is the rotation of the 32 bits, and every shift of the three schedules
lies in the list of R115. -/
def Obligations.RotationAndSchedules : Prop :=
  (∀ (v : Word) (s i : Nat), 1 ≤ s → s ≤ 31 → i < 32 →
    (rotl v s).getLsbD ((i + s) % 32) = v.getLsbD i) ∧
  (∀ n, shiftAt s1 n ∈ [3, 5, 7, 9, 11, 13, 15, 19] ∧ shiftAt s2 n ∈ [3, 5, 7, 9, 11, 13, 15, 19] ∧
    shiftAt s3 n ∈ [3, 5, 7, 9, 11, 13, 15, 19]) ∧
  rotl 0x80000001 1 = 0x00000003 ∧ rotl 0x12345678 4 = 0x23456781 ∧ rotl 0x0000007F 3 = 0x000003F8

/-- R116, R117 (and R118, R119): the roles of a step are those of the rotation, with the destination
distinct from the three operands; a step writes its destination, from the old values, and no other. -/
def Obligations.RegisterRotation : Prop :=
  (∀ n : Nat,
    ((role n 0 : Fin 4).val : Int) = (-(n : Int)) % 4 ∧ ((role n 1).val : Int) = (1 - (n : Int)) % 4 ∧
    ((role n 2).val : Int) = (2 - (n : Int)) % 4 ∧ ((role n 3).val : Int) = (3 - (n : Int)) % 4 ∧
    (n % 4 = 0 → [role n 0, role n 1, role n 2, role n 3] = [0, 1, 2, 3]) ∧
    (n % 4 = 1 → [role n 0, role n 1, role n 2, role n 3] = [3, 0, 1, 2]) ∧
    (n % 4 = 2 → [role n 0, role n 1, role n 2, role n 3] = [2, 3, 0, 1]) ∧
    (n % 4 = 3 → [role n 0, role n 1, role n 2, role n 3] = [1, 2, 3, 0])) ∧
  (∀ fn x k sh n (w : HashWords),
    (md4Step fn x k sh n w)[role n 0] =
      rotl (w[role n 0] + fn w[role n 1] w[role n 2] w[role n 3] + x + k) sh ∧
    ∀ j : Fin 4, j ≠ role n 0 → (md4Step fn x k sh n w)[j] = w[j])

/-- R121: Compress is the feed-forward over the 48 steps of the table, each row the destination register,
the three operand registers, the index of the message word, and the shift; rows 0 to 15 use F and K1,
16 to 31 G and K2, 32 to 47 H and K3. -/
def Obligations.CompressFollowsTheStepTable : Prop :=
  ∀ (h : HashWords) (blk : Block),
    let x := messageWords blk
    let row := fun (fn : Word → Word → Word → Word) (k : Word) (w : HashWords)
        (r : Fin 4 × Fin 4 × Fin 4 × Fin 4 × Fin 16 × Nat) =>
      w.set r.1 (rotl (w[r.1] + fn w[r.2.1] w[r.2.2.1] w[r.2.2.2.1] + x[r.2.2.2.2.1] + k) r.2.2.2.2.2)
    let one := [(0, 1, 2, 3, 0, 3), (3, 0, 1, 2, 1, 7), (2, 3, 0, 1, 2, 11), (1, 2, 3, 0, 3, 19),
      (0, 1, 2, 3, 4, 3), (3, 0, 1, 2, 5, 7), (2, 3, 0, 1, 6, 11), (1, 2, 3, 0, 7, 19),
      (0, 1, 2, 3, 8, 3), (3, 0, 1, 2, 9, 7), (2, 3, 0, 1, 10, 11), (1, 2, 3, 0, 11, 19),
      (0, 1, 2, 3, 12, 3), (3, 0, 1, 2, 13, 7), (2, 3, 0, 1, 14, 11), (1, 2, 3, 0, 15, 19)]
    let two := [(0, 1, 2, 3, 0, 3), (3, 0, 1, 2, 4, 5), (2, 3, 0, 1, 8, 9), (1, 2, 3, 0, 12, 13),
      (0, 1, 2, 3, 1, 3), (3, 0, 1, 2, 5, 5), (2, 3, 0, 1, 9, 9), (1, 2, 3, 0, 13, 13),
      (0, 1, 2, 3, 2, 3), (3, 0, 1, 2, 6, 5), (2, 3, 0, 1, 10, 9), (1, 2, 3, 0, 14, 13),
      (0, 1, 2, 3, 3, 3), (3, 0, 1, 2, 7, 5), (2, 3, 0, 1, 11, 9), (1, 2, 3, 0, 15, 13)]
    let three := [(0, 1, 2, 3, 0, 3), (3, 0, 1, 2, 8, 9), (2, 3, 0, 1, 4, 11), (1, 2, 3, 0, 12, 15),
      (0, 1, 2, 3, 2, 3), (3, 0, 1, 2, 10, 9), (2, 3, 0, 1, 6, 11), (1, 2, 3, 0, 14, 15),
      (0, 1, 2, 3, 1, 3), (3, 0, 1, 2, 9, 9), (2, 3, 0, 1, 5, 11), (1, 2, 3, 0, 13, 15),
      (0, 1, 2, 3, 3, 3), (3, 0, 1, 2, 11, 9), (2, 3, 0, 1, 7, 11), (1, 2, 3, 0, 15, 15)]
    let w := three.foldl (row (fun x y z => x ^^^ y ^^^ z) 0x6ED9EBA1)
      (two.foldl (row (fun x y z => (x &&& y) ||| (x &&& z) ||| (y &&& z)) 0x5A827999)
        (one.foldl (row (fun x y z => (x &&& y) ||| (~~~x &&& z)) 0x00000000) h))
    ∀ k : Fin 4, (compress h blk)[k] = h[k] + w[k]

/-- R111, R64, R65: message word i of a block is its bytes 4i to 4i + 3, the first the least significant;
bytesLE32 is the inverse of LE32 (R13). -/
def Obligations.MessageWordsLittleEndian : Prop :=
  (∀ (blk : Block) (i : Fin 16),
    (messageWords blk)[i].toNat =
      blk[4 * i.val].toNat + 2 ^ 8 * blk[4 * i.val + 1].toNat + 2 ^ 16 * blk[4 * i.val + 2].toNat
        + 2 ^ 24 * blk[4 * i.val + 3].toNat) ∧
  (∀ b0 b1 b2 b3 : Byte, bytesLE32 (le32 b0 b1 b2 b3) = [b0, b1, b2, b3])

/-- R130, R131: the padding of a message of L ≤ LEN_MAX bytes, its length and the number of blocks it
makes; z is the least number of zero bytes that will do; the length field is not reduced. -/
def Obligations.PaddingShape : Prop :=
  ∀ len : Nat, len ≤ 2 ^ 61 - 1 →
    ∃ z : Nat, (z : Int) = (55 - (len : Int)) % 64 ∧
      (len + 1 + z) % 64 = 56 ∧ (∀ y < z, (len + 1 + y) % 64 ≠ 56) ∧
      pad len = 0x80 :: (List.replicate z 0 ++ bytesLE64 (BitVec.ofNat 64 (8 * len))) ∧
      (BitVec.ofNat 64 (8 * len)).toNat = 8 * len ∧
      (pad len).length = 9 + z ∧ 9 ≤ (pad len).length ∧ (pad len).length ≤ 72 ∧
      (len + (pad len).length) % 64 = 0 ∧ (len + (pad len).length) / 64 = (len + 8) / 64 + 1

/-- R132: Md4Absorb raises exactly at LEN_MAX, and else writes one byte of BUF and LEN, compressing the
block at once when it is full. -/
def Obligations.Md4AbsorbEffect : Prop :=
  (∀ (c : Context) (b : Byte), md4Absorb c b = none ↔ c.len = 0x1FFFFFFFFFFFFFFF) ∧
  (∀ (c d : Context) (b : Byte), md4Absorb c b = some d →
    d.len = c.len + 1 ∧ d.buf[c.len.toNat % 64]'(Nat.mod_lt _ (by decide)) = b ∧
    (∀ j (hj : j < 64), j ≠ c.len.toNat % 64 → d.buf[j] = c.buf[j]) ∧
    d.h = if d.len.toNat % 64 = 0 then compress c.h d.buf else c.h) ∧
  (∃ c, (List.replicate 64 (0 : Byte)).foldlM md4Absorb md4Init = some c ∧ c.len = 64 ∧
    c.h = #v[0x015155EF, 0x2E5F67AB, 0x3681C98D, 0x7447AB15])

/-- R135, R25: after Md4Init and the absorption of the bytes of m, LEN is their number, H the state after
the whole blocks of m, and BUF begins with the bytes after them. -/
def Obligations.StreamedContextDeterminedByMessage : Prop :=
  ∀ m : List Byte, m.length ≤ lenMax →
    ∃ c, m.foldlM md4Absorb md4Init = some c ∧ c.len.toNat = m.length ∧
      c.h = hashBlocks iv m (m.length / 64) ∧
      ∀ i (_ : i < m.length % 64), c.buf[i]? = m[64 * (m.length / 64) + i]?

/-- R136: the streaming form computes `md4_digest`. -/
def Obligations.StreamingMd4IsMd4Digest : Prop :=
  ∀ m : List Byte, m.length ≤ lenMax →
    ∃ c, m.foldlM md4Absorb md4Init = some c ∧ serialize (md4Finalize c).h = md4Digest m

/-- 95_test_vectors.md section 1 (V-S1 to V-S3): the source's MD4 digests, of the empty message and of two
sentences. -/
def Obligations.SourceMd4Vectors : Prop :=
  md4Digest [] = [0x31, 0xd6, 0xcf, 0xe0, 0xd1, 0x6a, 0xe9, 0x31, 0xb7, 0x3c, 0x59, 0xd7, 0xe0, 0xc0,
    0x89, 0xc0] ∧
  md4Digest ("The quick brown fox jumps over the lazy dog".toList.map fun ch => BitVec.ofNat 8 ch.toNat)
    = [0x1b, 0xee, 0x69, 0xa4, 0x6b, 0xa8, 0x11, 0x18, 0x5c, 0x19, 0x47, 0x62, 0xab, 0xae, 0xae, 0x90] ∧
  md4Digest ("The quick brown fox jumps over the lazy cog".toList.map fun ch => BitVec.ofNat 8 ch.toNat)
    = [0xb8, 0x6e, 0x13, 0x0c, 0xe7, 0x02, 0x8d, 0xa5, 0x9e, 0x67, 0x2d, 0x56, 0xad, 0x01, 0x13, 0xdf]

/-! ## ED2K -/

/-- R161, R162: the segments are cut from the message in order and without gap; all but the last have
CHUNK_SIZE bytes, the last from 1 to CHUNK_SIZE; an exact multiple has no trailing empty segment. -/
def Obligations.SegmentPartition : Prop :=
  ∀ m : List Byte,
    ((List.range (segmentCount m.length)).map (segmentAt m)).flatten = m ∧
    (∀ s, s + 1 < segmentCount m.length → (segmentAt m s).length = 9728000) ∧
    (∀ s, s < segmentCount m.length →
      1 ≤ (segmentAt m s).length ∧ (segmentAt m s).length ≤ 9728000) ∧
    (segmentCount m.length = 0 ↔ m.length = 0) ∧
    (∀ k, m.length = k * 9728000 → segmentCount m.length = k)

/-- R175, R165: one segment passes its digest through; one byte more than CHUNK_SIZE hashes the two
digests; the empty message has the MD4 digest of the empty string. -/
def Obligations.Ed2kBoundaries : Prop :=
  (∀ m : List Byte, 0 < m.length → m.length ≤ 9728000 → ed2kDigest m = md4Digest m) ∧
  (∀ m : List Byte, m.length = 9728001 →
    ed2kDigest m = md4Digest (md4Digest (m.take 9728000) ++ md4Digest (m.drop 9728000))) ∧
  ed2kDigest [] = md4Digest [] ∧
  md4Digest [] = [0x31, 0xd6, 0xcf, 0xe0, 0xd1, 0x6a, 0xe9, 0x31, 0xb7, 0x3c, 0x59, 0xd7, 0xe0, 0xc0,
    0x89, 0xc0]

/-! ## What a command sequence computes -/

/-- R199: any two cuttings of the same bytes into pieces of 1 to 4 leave the same state after the last
ABSORB, from every state, but for the PEND of the last piece; and the same after a FINAL. -/
def Obligations.SplitIndependence : Prop :=
  ∀ (s : State) (ps qs : List (List Byte)), GoodPieces ps → GoodPieces qs → ps.flatten = qs.flatten →
    ∃ t u, absorbPieces ps s = .next t ∧ absorbPieces qs s = .next u ∧
      { t with pend := s.pend } = { u with pend := s.pend } ∧
      ∃ t' u', exec .final t = .next t' ∧ exec .final u = .next u' ∧
        { t' with pend := s.pend } = { u' with pend := s.pend }

/-- R200: from every state, with the reset input released and nothing else on the bus, the program
MD4_INIT, a PUSH for each piece, FINAL, DIGEST reaches DONE with `Serialize(DG) = md4_digest(m)`,
whatever the latencies, and its four reads return the words of DG. -/
def Obligations.Md4ProgramComputesDigest : Prop :=
  ∀ (s : State) (pieces : List (List Byte)), s.resetIn = false → s.bus = [] → GoodPieces pieces →
    pieces.flatten.length ≤ lenMax →
    ∃ n t, runSteps n { s with bus := digestProgram .md4Init pieces } = .next t ∧
      t.bus = [] ∧ t.busy = false ∧ t.phase = .done ∧ t.errcode = .none ∧
      serialize t.dg = md4Digest pieces.flatten ∧
      t.replies = s.replies ++ List.replicate (2 * pieces.length + 2) .written ++
        [.data t.dg[0], .data t.dg[1], .data t.dg[2], .data t.dg[3]]

/-- R201, R172: from every state, with the reset input released and nothing else on the bus, the program
ED2K_INIT, a PUSH for each piece, FINAL, DIGEST reaches DONE with `Serialize(DG) = ed2k_digest(m)`,
for every message of at most 2^57 − 1 segments, whatever the latencies, and its four reads return
the words of DG. -/
def Obligations.Ed2kProgramComputesDigest : Prop :=
  ∀ (s : State) (pieces : List (List Byte)), s.resetIn = false → s.bus = [] → GoodPieces pieces →
    pieces.flatten.length ≤ (2 ^ 57 - 1) * 9728000 →
    ∃ n t, runSteps n { s with bus := digestProgram .ed2kInit pieces } = .next t ∧
      t.bus = [] ∧ t.busy = false ∧ t.phase = .done ∧ t.errcode = .none ∧
      serialize t.dg = ed2kDigest pieces.flatten ∧
      t.replies = s.replies ++ List.replicate (2 * pieces.length + 2) .written ++
        [.data t.dg[0], .data t.dg[1], .data t.dg[2], .data t.dg[3]]

/-! ## The platform -/

/-- R60, R62: on a well-formed platform an access to an address in an instance's window is issued to that
instance at offset address − ENGINE_BASE and changes nothing else; an address in no window is the
platform's affair (refused: U15, log 10). -/
def Obligations.AddressDecoding : Prop :=
  ∀ (p : Platform) (addr : Nat) (size : AccessSize) (op : BusOp), p.WellFormed →
    (∀ k (hk : k < p.windows.length), p.windows[k].base ≤ addr → addr < p.windows[k].base + 128 →
      ∃ q off, p.access addr size op = .next q ∧ off.toNat = addr - p.windows[k].base ∧
        q.windows = p.windows.set k
          { p.windows[k] with engine := p.windows[k].engine.issue ⟨off, size, op⟩ }) ∧
    ((∀ w ∈ p.windows, ¬ (w.base ≤ addr ∧ addr < w.base + 128)) →
      p.access addr size op = .refused .outsideWindow)

/-- R246: instances share nothing. A step of one instance is that engine's step, leaves every other
instance as it was, and moves no window. -/
def Obligations.InstancesAreIndependent : Prop :=
  ∀ (p q : Platform) (k : Fin p.windows.length), p.stepAt k = .next q →
    (∃ t, step p.windows[k].engine = .next t ∧
      q.windows[k.val]? = some { p.windows[k] with engine := t }) ∧
    (∀ j, j ≠ k.val → q.windows[j]? = p.windows[j]?)
end

