-- ==== Sys2Proof/Laws/Decode.lean ====
section
/-! SUPPORT. A command word is its three fields (R90), so that a statement about every word comes down to
the words with RSV 0, of which there are 64. -/

namespace Sys2Proof

/-- R90: the word is RSV, NBM1 and OP, from the top. -/
theorem word_eq_fields (c : Word) : c = rsvField c ++ nbm1Field c ++ opField c := by
  apply BitVec.eq_of_getLsbD_eq
  intro i hi
  simp only [rsvField, nbm1Field, opField, BitVec.getLsbD_append, BitVec.getLsbD_extractLsb']
  split
  · simp [*]
  · split
    · simp only [show 4 + (i - 4) = i by omega]
      simp
      omega
    · simp only [show 6 + (i - 4 - 2) = i by omega]
      simp
      omega

/-- What holds of the words with RSV not 0 and of the 64 others holds of every word. -/
theorem word_cases {P : Word → Prop} (c : Word) (reserved : ∀ c, rsvField c ≠ 0 → P c)
    (fields : ∀ (nbm1 : BitVec 2) (op : BitVec 4), P ((0 : BitVec 26) ++ nbm1 ++ op)) : P c := by
  by_cases h : rsvField c = 0
  · rw [word_eq_fields c, h]; exact fields _ _
  · exact reserved c h

theorem decode_of_rsv {c : Word} (h : rsvField c ≠ 0) : decode c = .error .nonzeroRsv := by
  unfold decode; exact if_pos h

/-- An ABSORB is well-formed for four values of its operand. -/
theorem absorb_wf_cases {nb : Nat} (h : (Instr.absorb nb).WellFormed) : nb = 1 ∨ nb = 2 ∨ nb = 3 ∨ nb = 4 := by
  obtain ⟨h1, h2⟩ := h
  omega

end Sys2Proof
end

