-- ==== Sys2Proof/Laws/State.lean ====
section
/-! SUPPORT. What each named update of the state leaves in each field, so that no later proof unfolds
a record update. (An update written out as a record is reduced by simp itself.) -/

namespace Sys2Proof.Machine

/-! ### The reset state (R50) -/

@[simp] theorem reset_phase  : (State.reset).phase = .idle := rfl
@[simp] theorem reset_mode  : (State.reset).mode = .none := rfl
@[simp] theorem reset_errcode  : (State.reset).errcode = .none := rfl
@[simp] theorem reset_busy  : (State.reset).busy = false := rfl
@[simp] theorem reset_pend  : (State.reset).pend = ⟨0, 0⟩ := rfl
@[simp] theorem reset_din  : (State.reset).din = 0 := rfl
@[simp] theorem reset_dg  : (State.reset).dg = Vector.replicate 4 0 := rfl
@[simp] theorem reset_ci  : (State.reset).ci = Context.zero := rfl
@[simp] theorem reset_co  : (State.reset).co = Context.zero := rfl
@[simp] theorem reset_segcnt  : (State.reset).segcnt = 0 := rfl
@[simp] theorem reset_seg0  : (State.reset).seg0 = Vector.replicate 4 0 := rfl
@[simp] theorem reset_resetIn  : (State.reset).resetIn = false := rfl
@[simp] theorem reset_delay  : (State.reset).delay = 0 := rfl
@[simp] theorem reset_accepted  : (State.reset).accepted = 0 := rfl
@[simp] theorem reset_bus  : (State.reset).bus = [] := rfl
@[simp] theorem reset_replies  : (State.reset).replies = [] := rfl

/-! ### Every state of R50 to its reset value (R198, R260) -/

@[simp] theorem clearEngine_phase (s : State) : (clearEngine s).phase = .idle := rfl
@[simp] theorem clearEngine_mode (s : State) : (clearEngine s).mode = .none := rfl
@[simp] theorem clearEngine_errcode (s : State) : (clearEngine s).errcode = .none := rfl
@[simp] theorem clearEngine_busy (s : State) : (clearEngine s).busy = false := rfl
@[simp] theorem clearEngine_pend (s : State) : (clearEngine s).pend = ⟨0, 0⟩ := rfl
@[simp] theorem clearEngine_din (s : State) : (clearEngine s).din = 0 := rfl
@[simp] theorem clearEngine_dg (s : State) : (clearEngine s).dg = Vector.replicate 4 0 := rfl
@[simp] theorem clearEngine_ci (s : State) : (clearEngine s).ci = Context.zero := rfl
@[simp] theorem clearEngine_co (s : State) : (clearEngine s).co = Context.zero := rfl
@[simp] theorem clearEngine_segcnt (s : State) : (clearEngine s).segcnt = 0 := rfl
@[simp] theorem clearEngine_seg0 (s : State) : (clearEngine s).seg0 = Vector.replicate 4 0 := rfl
@[simp] theorem clearEngine_resetIn (s : State) : (clearEngine s).resetIn = s.resetIn := rfl
@[simp] theorem clearEngine_delay (s : State) : (clearEngine s).delay = 0 := rfl
@[simp] theorem clearEngine_accepted (s : State) : (clearEngine s).accepted = s.accepted := rfl
@[simp] theorem clearEngine_bus (s : State) : (clearEngine s).bus = s.bus := rfl
@[simp] theorem clearEngine_replies (s : State) : (clearEngine s).replies = s.replies := rfl

/-! ### Into ACTIVE (R192, R193) -/

@[simp] theorem enterActive_phase (m : Mode) (s : State) : (enterActive m s).phase = .active := rfl
@[simp] theorem enterActive_mode (m : Mode) (s : State) : (enterActive m s).mode = m := rfl
@[simp] theorem enterActive_errcode (m : Mode) (s : State) : (enterActive m s).errcode = .none := rfl
@[simp] theorem enterActive_busy (m : Mode) (s : State) : (enterActive m s).busy = s.busy := rfl
@[simp] theorem enterActive_pend (m : Mode) (s : State) : (enterActive m s).pend = s.pend := rfl
@[simp] theorem enterActive_din (m : Mode) (s : State) : (enterActive m s).din = s.din := rfl
@[simp] theorem enterActive_dg (m : Mode) (s : State) : (enterActive m s).dg = s.dg := rfl
@[simp] theorem enterActive_ci (m : Mode) (s : State) : (enterActive m s).ci = s.ci := rfl
@[simp] theorem enterActive_co (m : Mode) (s : State) : (enterActive m s).co = s.co := rfl
@[simp] theorem enterActive_segcnt (m : Mode) (s : State) : (enterActive m s).segcnt = s.segcnt := rfl
@[simp] theorem enterActive_seg0 (m : Mode) (s : State) : (enterActive m s).seg0 = s.seg0 := rfl
@[simp] theorem enterActive_resetIn (m : Mode) (s : State) : (enterActive m s).resetIn = s.resetIn := rfl
@[simp] theorem enterActive_delay (m : Mode) (s : State) : (enterActive m s).delay = s.delay := rfl
@[simp] theorem enterActive_accepted (m : Mode) (s : State) : (enterActive m s).accepted = s.accepted := rfl
@[simp] theorem enterActive_bus (m : Mode) (s : State) : (enterActive m s).bus = s.bus := rfl
@[simp] theorem enterActive_replies (m : Mode) (s : State) : (enterActive m s).replies = s.replies := rfl

/-! ### Ed2kInit (R169) -/

@[simp] theorem ed2kInit_phase (s : State) : (ed2kInit s).phase = s.phase := rfl
@[simp] theorem ed2kInit_mode (s : State) : (ed2kInit s).mode = s.mode := rfl
@[simp] theorem ed2kInit_errcode (s : State) : (ed2kInit s).errcode = s.errcode := rfl
@[simp] theorem ed2kInit_busy (s : State) : (ed2kInit s).busy = s.busy := rfl
@[simp] theorem ed2kInit_pend (s : State) : (ed2kInit s).pend = s.pend := rfl
@[simp] theorem ed2kInit_din (s : State) : (ed2kInit s).din = s.din := rfl
@[simp] theorem ed2kInit_dg (s : State) : (ed2kInit s).dg = s.dg := rfl
@[simp] theorem ed2kInit_ci (s : State) : (ed2kInit s).ci = md4Init := rfl
@[simp] theorem ed2kInit_co (s : State) : (ed2kInit s).co = md4Init := rfl
@[simp] theorem ed2kInit_segcnt (s : State) : (ed2kInit s).segcnt = 0 := rfl
@[simp] theorem ed2kInit_seg0 (s : State) : (ed2kInit s).seg0 = Vector.replicate 4 0 := rfl
@[simp] theorem ed2kInit_resetIn (s : State) : (ed2kInit s).resetIn = s.resetIn := rfl
@[simp] theorem ed2kInit_delay (s : State) : (ed2kInit s).delay = s.delay := rfl
@[simp] theorem ed2kInit_accepted (s : State) : (ed2kInit s).accepted = s.accepted := rfl
@[simp] theorem ed2kInit_bus (s : State) : (ed2kInit s).bus = s.bus := rfl
@[simp] theorem ed2kInit_replies (s : State) : (ed2kInit s).replies = s.replies := rfl

/-! ### Acceptance of a command (R34) -/

@[simp] theorem acceptCommand_phase (c : Word) (s : State) : (acceptCommand c s).phase = s.phase := rfl
@[simp] theorem acceptCommand_mode (c : Word) (s : State) : (acceptCommand c s).mode = s.mode := rfl
@[simp] theorem acceptCommand_errcode (c : Word) (s : State) : (acceptCommand c s).errcode = s.errcode := rfl
@[simp] theorem acceptCommand_busy (c : Word) (s : State) : (acceptCommand c s).busy = true := rfl
@[simp] theorem acceptCommand_pend (c : Word) (s : State) : (acceptCommand c s).pend = ⟨c, s.din⟩ := rfl
@[simp] theorem acceptCommand_din (c : Word) (s : State) : (acceptCommand c s).din = s.din := rfl
@[simp] theorem acceptCommand_dg (c : Word) (s : State) : (acceptCommand c s).dg = s.dg := rfl
@[simp] theorem acceptCommand_ci (c : Word) (s : State) : (acceptCommand c s).ci = s.ci := rfl
@[simp] theorem acceptCommand_co (c : Word) (s : State) : (acceptCommand c s).co = s.co := rfl
@[simp] theorem acceptCommand_segcnt (c : Word) (s : State) : (acceptCommand c s).segcnt = s.segcnt := rfl
@[simp] theorem acceptCommand_seg0 (c : Word) (s : State) : (acceptCommand c s).seg0 = s.seg0 := rfl
@[simp] theorem acceptCommand_resetIn (c : Word) (s : State) : (acceptCommand c s).resetIn = s.resetIn := rfl
@[simp] theorem acceptCommand_delay (c : Word) (s : State) : (acceptCommand c s).delay = Config.cmdLatency s.accepted := rfl
@[simp] theorem acceptCommand_accepted (c : Word) (s : State) : (acceptCommand c s).accepted = s.accepted + 1 := rfl
@[simp] theorem acceptCommand_bus (c : Word) (s : State) : (acceptCommand c s).bus = s.bus := rfl
@[simp] theorem acceptCommand_replies (c : Word) (s : State) : (acceptCommand c s).replies = s.replies := rfl

/-! ### A command placed for the next step -/

@[simp] theorem placeCommand_phase (c : Word) (s : State) : (placeCommand c s).phase = s.phase := rfl
@[simp] theorem placeCommand_mode (c : Word) (s : State) : (placeCommand c s).mode = s.mode := rfl
@[simp] theorem placeCommand_errcode (c : Word) (s : State) : (placeCommand c s).errcode = s.errcode := rfl
@[simp] theorem placeCommand_busy (c : Word) (s : State) : (placeCommand c s).busy = true := rfl
@[simp] theorem placeCommand_pend (c : Word) (s : State) : (placeCommand c s).pend = ⟨c, s.din⟩ := rfl
@[simp] theorem placeCommand_din (c : Word) (s : State) : (placeCommand c s).din = s.din := rfl
@[simp] theorem placeCommand_dg (c : Word) (s : State) : (placeCommand c s).dg = s.dg := rfl
@[simp] theorem placeCommand_ci (c : Word) (s : State) : (placeCommand c s).ci = s.ci := rfl
@[simp] theorem placeCommand_co (c : Word) (s : State) : (placeCommand c s).co = s.co := rfl
@[simp] theorem placeCommand_segcnt (c : Word) (s : State) : (placeCommand c s).segcnt = s.segcnt := rfl
@[simp] theorem placeCommand_seg0 (c : Word) (s : State) : (placeCommand c s).seg0 = s.seg0 := rfl
@[simp] theorem placeCommand_resetIn (c : Word) (s : State) : (placeCommand c s).resetIn = false := rfl
@[simp] theorem placeCommand_delay (c : Word) (s : State) : (placeCommand c s).delay = 0 := rfl
@[simp] theorem placeCommand_accepted (c : Word) (s : State) : (placeCommand c s).accepted = s.accepted := rfl
@[simp] theorem placeCommand_bus (c : Word) (s : State) : (placeCommand c s).bus = s.bus := rfl
@[simp] theorem placeCommand_replies (c : Word) (s : State) : (placeCommand c s).replies = s.replies := rfl

/-! ### A host access issued -/

@[simp] theorem issue_phase (a : BusAccess) (s : State) : (State.issue a s).phase = s.phase := rfl
@[simp] theorem issue_mode (a : BusAccess) (s : State) : (State.issue a s).mode = s.mode := rfl
@[simp] theorem issue_errcode (a : BusAccess) (s : State) : (State.issue a s).errcode = s.errcode := rfl
@[simp] theorem issue_busy (a : BusAccess) (s : State) : (State.issue a s).busy = s.busy := rfl
@[simp] theorem issue_pend (a : BusAccess) (s : State) : (State.issue a s).pend = s.pend := rfl
@[simp] theorem issue_din (a : BusAccess) (s : State) : (State.issue a s).din = s.din := rfl
@[simp] theorem issue_dg (a : BusAccess) (s : State) : (State.issue a s).dg = s.dg := rfl
@[simp] theorem issue_ci (a : BusAccess) (s : State) : (State.issue a s).ci = s.ci := rfl
@[simp] theorem issue_co (a : BusAccess) (s : State) : (State.issue a s).co = s.co := rfl
@[simp] theorem issue_segcnt (a : BusAccess) (s : State) : (State.issue a s).segcnt = s.segcnt := rfl
@[simp] theorem issue_seg0 (a : BusAccess) (s : State) : (State.issue a s).seg0 = s.seg0 := rfl
@[simp] theorem issue_resetIn (a : BusAccess) (s : State) : (State.issue a s).resetIn = s.resetIn := rfl
@[simp] theorem issue_delay (a : BusAccess) (s : State) : (State.issue a s).delay = s.delay := rfl
@[simp] theorem issue_accepted (a : BusAccess) (s : State) : (State.issue a s).accepted = s.accepted := rfl
@[simp] theorem issue_bus (a : BusAccess) (s : State) : (State.issue a s).bus = s.bus ++ [a] := rfl
@[simp] theorem issue_replies (a : BusAccess) (s : State) : (State.issue a s).replies = s.replies := rfl

/-! ### Contexts (R50, R133) -/

@[simp] theorem zero_h : Context.zero.h = Vector.replicate 4 0 := rfl
@[simp] theorem zero_buf : Context.zero.buf = Vector.replicate 64 0 := rfl
@[simp] theorem zero_len : Context.zero.len = 0 := rfl
@[simp] theorem md4Init_h : md4Init.h = iv := rfl
@[simp] theorem md4Init_buf : md4Init.buf = Vector.replicate 64 0 := rfl
@[simp] theorem md4Init_len : md4Init.len = 0 := rfl

/-! ### Flow (R14) -/

@[simp] theorem andThen_goOn (s : State) (k : State → Flow) : (Flow.goOn s).andThen k = k s := rfl
@[simp] theorem andThen_ended (s : State) (k : State → Flow) : (Flow.ended s).andThen k = .ended s := rfl
@[simp] theorem state_goOn (s : State) : (Flow.goOn s).state = s := rfl
@[simp] theorem state_ended (s : State) : (Flow.ended s).state = s := rfl

/-- Sequencing is associative: which statements are grouped does not matter. -/
theorem andThen_assoc (f : Flow) (k l : State → Flow) :
    (f.andThen k).andThen l = f.andThen fun s => (k s).andThen l := by cases f <;> rfl

end Sys2Proof.Machine
end

