-- ==== Sys2Proof/Laws/Ops.lean ====
section
/-! SUPPORT. What the shared operations can do: error entry, the phase guard, absorption of a byte list
into a context, and how the statements of a command change a state. -/

namespace Sys2Proof.Machine

/-! ### Error entry (R236) -/

theorem raiseError_eq (code : ErrCode) (s : State) :
    raiseError code s =
      { s with phase := .error, errcode := if s.phase = .error then s.errcode else code } := by
  unfold raiseError
  split
  · next h => cases s; simp_all
  · simp

/-- In ERROR the first error is kept. -/
@[simp] theorem raiseError_of_error {code : ErrCode} {s : State} (h : s.phase = .error) :
    raiseError code s = s := by simp [raiseError, h]

theorem raiseError_of_ne {code : ErrCode} {s : State} (h : s.phase ≠ .error) :
    raiseError code s = { s with phase := .error, errcode := code } := by simp [raiseError, h]

/-! ### The phase guard (R191) -/

theorem requireActive_active {s : State} (h : s.phase = .active) : requireActive s = .goOn s := by
  simp [requireActive, h]

theorem requireActive_error {s : State} (h : s.phase = .error) : requireActive s = .ended s := by
  simp [requireActive, h]

theorem requireActive_raises {s : State} (h : s.phase = .idle ∨ s.phase = .done) :
    requireActive s = .ended { s with phase := .error, errcode := .sequence } := by
  rcases h with h | h <;> simp [requireActive, raise, raiseError, h]

/-- The guard lets a command go on only from ACTIVE, and then with the state as it was. -/
theorem requireActive_goOn {s t : State} (h : requireActive s = .goOn t) :
    s.phase = .active ∧ t = s := by
  unfold requireActive at h
  split at h <;> simp_all [raise]

/-! ### What a flow keeps -/

/-- What no statement of ABSORB or FINAL touches: MODE, BUSY, PEND, DIN and the host side. -/
structure SameHost (s t : State) : Prop where
  mode : t.mode = s.mode
  busy : t.busy = s.busy
  pend : t.pend = s.pend
  din : t.din = s.din
  resetIn : t.resetIn = s.resetIn
  delay : t.delay = s.delay
  accepted : t.accepted = s.accepted
  bus : t.bus = s.bus
  replies : t.replies = s.replies

theorem SameHost.refl (s : State) : SameHost s s := ⟨rfl, rfl, rfl, rfl, rfl, rfl, rfl, rfl, rfl⟩

theorem SameHost.trans {s t u : State} (h : SameHost s t) (g : SameHost t u) : SameHost s u :=
  ⟨g.mode.trans h.mode, g.busy.trans h.busy, g.pend.trans h.pend, g.din.trans h.din,
   g.resetIn.trans h.resetIn, g.delay.trans h.delay, g.accepted.trans h.accepted,
   g.bus.trans h.bus, g.replies.trans h.replies⟩

theorem SameHost.raiseError (code : ErrCode) (s : State) : SameHost s (raiseError code s) := by
  rw [raiseError_eq]; constructor <;> rfl

/-! ### Absorption into a context (R132) -/

theorem md4Absorb_none_iff (c : Context) (b : Byte) :
    md4Absorb c b = none ↔ c.len = BitVec.ofNat 64 lenMax := by
  unfold md4Absorb; split <;> simp_all

theorem md4Absorb_some {c d : Context} {b : Byte} (h : md4Absorb c b = some d) :
    c.len ≠ BitVec.ofNat 64 lenMax ∧ d.len = c.len + 1 ∧
    d.buf = c.buf.setIfInBounds (c.len.toNat % 64) b ∧
    d.h = if d.len.toNat % 64 = 0 then compress c.h d.buf else c.h := by
  unfold md4Absorb at h
  split at h
  · cases h
  · next hne => cases h; exact ⟨hne, rfl, rfl, rfl⟩

/-- One byte more fits below LEN_MAX. -/
theorem md4Absorb_isSome {c : Context} (b : Byte) (h : c.len.toNat < lenMax) :
    ∃ d, md4Absorb c b = some d ∧ d.len.toNat = c.len.toNat + 1 := by
  have hne : c.len ≠ BitVec.ofNat 64 lenMax := by
    intro e; rw [e] at h; simp [lenMax] at h
  cases hd : md4Absorb c b with
  | none => exact absurd ((md4Absorb_none_iff c b).1 hd) hne
  | some d =>
    refine ⟨d, rfl, ?_⟩
    rw [(md4Absorb_some hd).2.1]
    simp only [lenMax] at h
    simp [BitVec.toNat_add]; omega

/-- Below LEN_MAX a list of bytes is absorbed whole, and LEN grows by its length. -/
theorem absorbList_isSome : ∀ (bs : List Byte) (c : Context), c.len.toNat + bs.length ≤ lenMax →
    ∃ d, bs.foldlM md4Absorb c = some d ∧ d.len.toNat = c.len.toNat + bs.length
  | [], c, _ => ⟨c, rfl, rfl⟩
  | b :: bs, c, h => by
    simp only [List.length_cons] at h
    obtain ⟨d, hd, hlen⟩ := md4Absorb_isSome (c := c) b (by omega)
    obtain ⟨e, he, helen⟩ := absorbList_isSome bs d (by omega)
    exact ⟨e, by simp [List.foldlM_cons, hd, he], by simp only [List.length_cons]; omega⟩

theorem absorbInner_some {b : Byte} {s : State} {c : Context} (h : md4Absorb s.ci b = some c) :
    absorbInner b s = .goOn { s with ci := c } := by simp [absorbInner, h]

theorem absorbInner_full {b : Byte} {s : State} (h : s.ci.len = BitVec.ofNat 64 lenMax) :
    absorbInner b s = .ended (raiseError .lengthOverflow s) := by
  simp [absorbInner, (md4Absorb_none_iff s.ci b).2 h, raise]

theorem absorbOuter_some {b : Byte} {s : State} {c : Context} (h : md4Absorb s.co b = some c) :
    absorbOuter b s = .goOn { s with co := c } := by simp [absorbOuter, h]

/-- The whole list enters CO, if CO has room for it. -/
theorem absorbAllOuter_some : ∀ (bs : List Byte) (s : State) (c : Context),
    bs.foldlM md4Absorb s.co = some c → absorbAllOuter bs s = .goOn { s with co := c }
  | [], s, c, h => by simp at h; subst h; rfl
  | b :: bs, s, c, h => by
    simp only [List.foldlM_cons] at h
    cases hd : md4Absorb s.co b with
    | none => simp [hd] at h
    | some d =>
      simp only [hd] at h
      simp only [absorbAllOuter, absorbOuter_some hd, andThen_goOn]
      rw [absorbAllOuter_some bs { s with co := d } c h]

theorem absorbByte_md4 {b : Byte} {s : State} (h : s.mode = .md4) :
    absorbByte b s = absorbInner b s := by simp [absorbByte, h]

theorem absorbByte_ed2k {b : Byte} {s : State} (h : s.mode = .ed2k) :
    absorbByte b s = ed2kAbsorb b s := by simp [absorbByte, h]

/-- In MD4 mode a list of bytes that CI has room for enters CI and nothing else. -/
theorem absorbBytes_md4 : ∀ (bs : List Byte) (s : State) (c : Context), s.mode = .md4 →
    bs.foldlM md4Absorb s.ci = some c → absorbBytes bs s = .goOn { s with ci := c }
  | [], s, c, _, h => by simp at h; subst h; rfl
  | b :: bs, s, c, hm, h => by
    simp only [List.foldlM_cons] at h
    cases hd : md4Absorb s.ci b with
    | none => simp [hd] at h
    | some d =>
      simp only [hd] at h
      simp only [absorbBytes, absorbByte_md4 hm, absorbInner_some hd, andThen_goOn]
      rw [absorbBytes_md4 bs { s with ci := d } c hm h]

theorem absorbBytes_append : ∀ (as bs : List Byte) (s : State),
    absorbBytes (as ++ bs) s = (absorbBytes as s).andThen (absorbBytes bs)
  | [], _, _ => rfl
  | a :: as, bs, s => by
    simp only [List.cons_append, absorbBytes, andThen_assoc]
    congr 1; funext t; exact absorbBytes_append as bs t

end Sys2Proof.Machine
end

