-- ==== Sys2Proof/Laws/Md4.lean ====
section
/-! SUPPORT. The streaming form of MD4 seen as one process that feeds bytes into a block: what Md4Absorb
and Md4Finalize do is the same feeding (R132, R134), and feeding whole blocks is compressing them in
order (R110). -/

namespace Sys2Proof.Machine

/-! ### Operands (R94) -/

/-- The bytes of `ABSORB nb`, lane by lane. -/
theorem absorbOperand_eq {nb : Nat} (h : nb ≤ 4) (din : Word) :
    absorbOperand nb din = (List.range nb).map fun t => din.extractLsb' (8 * t) 8 := by
  have : nb = 0 ∨ nb = 1 ∨ nb = 2 ∨ nb = 3 ∨ nb = 4 := by omega
  rcases this with rfl | rfl | rfl | rfl | rfl <;> rfl

theorem byteOf_le32 (b0 b1 b2 b3 : Byte) :
    byteOf (le32 b0 b1 b2 b3) 0 = b0 ∧ byteOf (le32 b0 b1 b2 b3) 1 = b1 ∧
    byteOf (le32 b0 b1 b2 b3) 2 = b2 ∧ byteOf (le32 b0 b1 b2 b3) 3 = b3 := by
  refine ⟨?_, ?_, ?_, ?_⟩ <;>
  · apply BitVec.eq_of_getLsbD_eq
    intro i hi
    simp only [byteOf, le32, BitVec.getLsbD_extractLsb', BitVec.getLsbD_append, hi, decide_true,
      Bool.true_and]
    split <;> (try split) <;> (try split) <;> first | omega | (congr 1; omega)

/-- The bytes a host pushes are the bytes an ABSORB takes (R94, R98). -/
theorem absorbOperand_dinOfBytes {bs : List Byte} (h : bs.length ≤ 4) :
    absorbOperand bs.length (dinOfBytes bs) = bs := by
  obtain ⟨h0, h1, h2, h3⟩ :=
    byteOf_le32 (bs.getD 0 0) (bs.getD 1 0) (bs.getD 2 0) (bs.getD 3 0)
  unfold absorbOperand dinLanes bytesLE32 dinOfBytes
  rw [h0, h1, h2, h3]
  match bs, h with
  | [], _ => rfl
  | [_], _ => rfl
  | [_, _], _ => rfl
  | [_, _, _], _ => rfl
  | [_, _, _, _], _ => rfl
  | _ :: _ :: _ :: _ :: _ :: _, h => simp at h; omega

/-! ### Padding (R130) -/

theorem pad_length (len : Nat) : (pad len).length = 9 + padZeros len := by
  simp [pad, bytesLE64]
  omega

/-- A padded message is made of whole blocks. -/
theorem padded_length (len : Nat) :
    len + (pad len).length = 64 * ((len + (pad len).length) / 64) := by
  rw [pad_length]; unfold padZeros; omega

/-! ### Feeding (R132, R134) -/

/-- A hash state, a block, and the fill level of the block. -/
structure Feed where
  h : HashWords
  buf : Block
  fill : Nat

/-- One byte fed: into the block, which is compressed when it is full. -/
def Feed.byte (f : Feed) (b : Byte) : Feed :=
  if f.fill + 1 = 64 then ⟨compress f.h (f.buf.setIfInBounds f.fill b), f.buf.setIfInBounds f.fill b, 0⟩
  else ⟨f.h, f.buf.setIfInBounds f.fill b, f.fill + 1⟩

/-- A context as a feed: its fill level is LEN mod 64 (R25). -/
def Context.feed (c : Context) : Feed := ⟨c.h, c.buf, c.len.toNat % 64⟩

theorem md4Absorb_feed {c d : Context} {b : Byte} (h : md4Absorb c b = some d) :
    d.feed = c.feed.byte b := by
  obtain ⟨_, hl, hb, hh⟩ := md4Absorb_some h
  have hlen : d.len.toNat % 64 = (c.len.toNat + 1) % 64 := by
    rw [hl]; simp [BitVec.toNat_add]
  unfold Context.feed Feed.byte
  rw [hlen] at hh ⊢
  rw [hh, hb]
  by_cases hf : c.len.toNat % 64 + 1 = 64
  · have : (c.len.toNat + 1) % 64 = 0 := by omega
    simp [hf, this]
  · have : (c.len.toNat + 1) % 64 = c.len.toNat % 64 + 1 := by omega
    simp [hf, this]

theorem absorbList_feed : ∀ (bs : List Byte) (c d : Context), bs.foldlM md4Absorb c = some d →
    d.feed = bs.foldl Feed.byte c.feed
  | [], c, d, h => by simp at h; subst h; rfl
  | b :: bs, c, d, h => by
    simp only [List.foldlM_cons] at h
    cases he : md4Absorb c b with
    | none => simp [he] at h
    | some e =>
      simp only [he] at h
      rw [List.foldl_cons, ← md4Absorb_feed he]
      exact absorbList_feed bs e d h

/-- The loop of Md4Finalize is the same feeding. -/
theorem finalize_feed : ∀ (bs : List Byte) (cf : Context × Nat),
    let r := bs.foldl finalizeByte cf
    let g := bs.foldl Feed.byte ⟨cf.1.h, cf.1.buf, cf.2⟩
    r.1.h = g.h ∧ r.1.buf = g.buf ∧ r.2 = g.fill ∧ r.1.len = cf.1.len
  | [], cf => ⟨rfl, rfl, rfl, rfl⟩
  | b :: bs, cf => by
    simp only [List.foldl_cons]
    obtain ⟨h1, h2, h3, h4⟩ := finalize_feed bs (finalizeByte cf b)
    have hb : (⟨(finalizeByte cf b).1.h, (finalizeByte cf b).1.buf, (finalizeByte cf b).2⟩ : Feed) =
        Feed.byte ⟨cf.1.h, cf.1.buf, cf.2⟩ b := by
      unfold finalizeByte Feed.byte; dsimp only; split <;> rfl
    have hl : (finalizeByte cf b).1.len = cf.1.len := by
      unfold finalizeByte; dsimp only; split <;> rfl
    rw [hb] at h1 h2 h3
    exact ⟨h1, h2, h3, h4.trans hl⟩

/-- Md4Finalize does not change LEN: padding is no message data (R134). -/
@[simp] theorem md4Finalize_len (c : Context) : (md4Finalize c).len = c.len :=
  (finalize_feed (pad c.len.toNat) (c, c.len.toNat % 64)).2.2.2

/-- Md4Finalize feeds the padding. -/
theorem md4Finalize_h (c : Context) :
    (md4Finalize c).h = ((pad c.len.toNat).foldl Feed.byte c.feed).h :=
  (finalize_feed (pad c.len.toNat) (c, c.len.toNat % 64)).1

/-- Feeding fewer bytes than a block lacks only places them. -/
theorem feed_partial : ∀ (bs : List Byte) (f : Feed), f.fill + bs.length < 64 →
    let g := bs.foldl Feed.byte f
    g.h = f.h ∧ g.fill = f.fill + bs.length ∧
    (∀ i < f.fill, g.buf[i]? = f.buf[i]?) ∧
    ∀ i < bs.length, g.buf[f.fill + i]? = bs[i]?
  | [], f, _ => ⟨rfl, rfl, fun _ _ => rfl, fun i hi => by simp at hi⟩
  | b :: bs, f, h => by
    simp only [List.length_cons] at h
    have hb : f.byte b = ⟨f.h, f.buf.setIfInBounds f.fill b, f.fill + 1⟩ := by
      simp only [Feed.byte]; rw [if_neg (by omega)]
    have := feed_partial bs (f.byte b) (by rw [hb]; dsimp only; omega)
    rw [hb] at this
    obtain ⟨h1, h2, h3, h4⟩ := this
    simp only [List.foldl_cons, hb]
    dsimp only at h1 h2 h3 h4
    refine ⟨h1, by simp only [List.length_cons]; omega, fun i hi => ?_, fun i hi => ?_⟩
    · rw [h3 i (by omega)]
      rw [Vector.getElem?_setIfInBounds_ne (by omega)]
    · cases i with
      | zero =>
        have := h3 f.fill (by omega)
        rw [Vector.getElem?_setIfInBounds_self, if_pos (by omega)] at this
        simpa using this
      | succ i =>
        have := h4 i (by simpa using hi)
        rw [show f.fill + (i + 1) = f.fill + 1 + i by omega, this]
        simp

/-- Feeding a whole block from an empty fill compresses it. -/
theorem feed_block (bs : List Byte) (f : Feed) (hf : f.fill = 0) (hl : bs.length = 64) :
    let g := bs.foldl Feed.byte f
    g.h = compress f.h (blockAt bs 0) ∧ g.fill = 0 := by
  obtain ⟨as, b, rfl⟩ : ∃ as b, bs = as ++ [b] :=
    ⟨bs.dropLast, bs.getLast (by intro e; simp [e] at hl),
      (List.dropLast_append_getLast (by intro e; simp [e] at hl)).symm⟩
  have ha : as.length = 63 := by simpa using hl
  obtain ⟨h1, h2, _, h4⟩ := feed_partial as f (by omega)
  simp only [List.foldl_append, List.foldl_cons, List.foldl_nil]
  generalize as.foldl Feed.byte f = g at *
  have hfill : g.fill = 63 := by omega
  have hbuf : g.buf.setIfInBounds g.fill b = blockAt (as ++ [b]) 0 := by
    apply Vector.ext
    intro i hi
    simp only [blockAt, Vector.getElem_ofFn, Nat.mul_zero, Nat.zero_add, hfill]
    by_cases hi63 : i = 63
    · subst hi63
      rw [Vector.getElem_setIfInBounds_self]
      simp [List.getD_eq_getElem?_getD, ha]
    · rw [Vector.getElem_setIfInBounds_ne _ (by omega)]
      have := h4 i (by omega)
      rw [hf, Nat.zero_add] at this
      rw [List.getD_eq_getElem?_getD, List.getElem?_append_left (by omega), ← this]
      simp [hi]
  unfold Feed.byte
  rw [hbuf, if_pos (by omega), h1]
  exact ⟨rfl, rfl⟩

theorem blockAt_drop (p : List Byte) (k q : Nat) : blockAt (p.drop (64 * k)) q = blockAt p (k + q) := by
  apply Vector.ext
  intro i hi
  simp only [blockAt, Vector.getElem_ofFn, List.getD_eq_getElem?_getD, List.getElem?_drop]
  congr 2; omega

theorem blockAt_append {p q : List Byte} {k : Nat} (h : 64 * (k + 1) ≤ p.length) :
    blockAt (p ++ q) k = blockAt p k := by
  apply Vector.ext
  intro i hi
  simp only [blockAt, Vector.getElem_ofFn, List.getD_eq_getElem?_getD]
  rw [List.getElem?_append_left (by omega)]

@[simp] theorem hashBlocks_zero (h : HashWords) (p : List Byte) : hashBlocks h p 0 = h := by
  simp [hashBlocks]

theorem hashBlocks_succ (h : HashWords) (p : List Byte) (n : Nat) :
    hashBlocks h p (n + 1) = compress (hashBlocks h p n) (blockAt p n) := by
  simp [hashBlocks, List.range_succ]

theorem hashBlocks_append {h : HashWords} {p q : List Byte} {n : Nat} (hn : 64 * n ≤ p.length) :
    hashBlocks h (p ++ q) n = hashBlocks h p n := by
  induction n with
  | zero => simp
  | succ n ih => rw [hashBlocks_succ, hashBlocks_succ, blockAt_append (by omega), ih (by omega)]

/-- Feeding the first n blocks of p, from an empty fill, compresses them in order. -/
theorem feed_blocks (p : List Byte) (f : Feed) (hf : f.fill = 0) {n : Nat} (hn : 64 * n ≤ p.length) :
    ((p.take (64 * n)).foldl Feed.byte f).h = hashBlocks f.h p n ∧
    ((p.take (64 * n)).foldl Feed.byte f).fill = 0 := by
  induction n with
  | zero => simp [hf]
  | succ n ih =>
    obtain ⟨h1, h2⟩ := ih (by omega)
    have hsplit : p.take (64 * (n + 1)) = p.take (64 * n) ++ (p.drop (64 * n)).take 64 := by
      rw [show 64 * (n + 1) = 64 * n + 64 by omega, List.take_add]
    have hblock : blockAt ((p.drop (64 * n)).take 64) 0 = blockAt p n := by
      rw [← Nat.add_zero n, ← blockAt_drop, Nat.add_zero]
      conv_rhs => rw [← List.take_append_drop 64 (p.drop (64 * n))]
      rw [blockAt_append (by simp; omega)]
    obtain ⟨h3, h4⟩ := feed_block ((p.drop (64 * n)).take 64)
      ((p.take (64 * n)).foldl Feed.byte f) h2 (by simp; omega)
    rw [hsplit, List.foldl_append]
    exact ⟨by rw [h3, h1, hashBlocks_succ, hblock], h4⟩

@[simp] theorem md4Init_feed : md4Init.feed = ⟨iv, Vector.replicate 64 0, 0⟩ := rfl

end Sys2Proof.Machine
end

