-- ==== Sys2Proof/Laws/Ed2k.lean ====
section
/-! SUPPORT. What the chunker's operations do: closing a segment, absorbing a byte in ED2K mode, and what
ABSORB and FINAL can change at all. -/

namespace Sys2Proof.Machine

@[simp] theorem serialize_length (h : HashWords) : (serialize h).length = 16 := by
  simp [serialize, bytesLE32]

/-! ### Closing a segment (R170) -/

theorem segmentClose_full {s : State} (h : s.segcnt = BitVec.ofNat 64 segMax) :
    segmentClose s = .ended (raiseError .lengthOverflow s) := by simp [segmentClose, h, raise]

/-- With room in CO the segment's digest enters it, and the next segment starts. -/
theorem segmentClose_some {s : State} {co : Context} (h : s.segcnt ≠ BitVec.ofNat 64 segMax)
    (hco : (serialize (md4Finalize s.ci).h).foldlM md4Absorb s.co = some co) :
    segmentClose s = .goOn { s with
      ci := md4Init
      co := co
      seg0 := if s.segcnt = 0 then (md4Finalize s.ci).h else s.seg0
      segcnt := s.segcnt + 1 } := by
  unfold segmentClose
  rw [if_neg h]
  dsimp only
  rw [absorbAllOuter_some _ { s with ci := md4Finalize s.ci } co hco]
  rfl

/-- Within the bounds of R170 the outer context has room for one more digest. -/
theorem outer_room {s : State} (hb : s.Bounded) (hm : s.mode = .ed2k)
    (h : s.segcnt.toNat < segMax) (d : HashWords) :
    ∃ co, (serialize d).foldlM md4Absorb s.co = some co ∧ co.len.toNat = s.co.len.toNat + 16 := by
  have := absorbList_isSome (serialize d) s.co (by
    rw [hb.2.2 hm, serialize_length]; simp only [segMax, lenMax] at *; omega)
  simpa using this

theorem segcnt_ne {s : State} (h : s.segcnt.toNat < segMax) : s.segcnt ≠ BitVec.ofNat 64 segMax := by
  intro e; rw [e] at h; simp [segMax] at h

theorem segcnt_eq {s : State} (h : s.segcnt.toNat = segMax) : s.segcnt = BitVec.ofNat 64 segMax := by
  apply BitVec.eq_of_toNat_eq; simp [h, segMax]

/-- Everything the absorption of a digest into CO can do, in any state. -/
theorem absorbAllOuter_cases : ∀ (bs : List Byte) (s : State),
    (∃ co, bs.foldlM md4Absorb s.co = some co ∧ absorbAllOuter bs s = .goOn { s with co := co }) ∨
    (∃ co, absorbAllOuter bs s = .ended (raiseError .lengthOverflow { s with co := co }))
  | [], s => .inl ⟨s.co, rfl, rfl⟩
  | b :: bs, s => by
    simp only [absorbAllOuter, absorbOuter, List.foldlM_cons]
    cases md4Absorb s.co b with
    | none => exact .inr ⟨s.co, rfl⟩
    | some c => exact absorbAllOuter_cases bs { s with co := c }

/-- Everything SegmentClose can do, in any state. -/
theorem segmentClose_cases (s : State) :
    (s.segcnt = BitVec.ofNat 64 segMax ∧ segmentClose s = .ended (raiseError .lengthOverflow s)) ∨
    (∃ co, segmentClose s =
      .ended (raiseError .lengthOverflow { s with ci := md4Finalize s.ci, co := co })) ∨
    (s.segcnt ≠ BitVec.ofNat 64 segMax ∧ ∃ co,
      (serialize (md4Finalize s.ci).h).foldlM md4Absorb s.co = some co ∧
      segmentClose s = .goOn { s with
        ci := md4Init
        co := co
        seg0 := if s.segcnt = 0 then (md4Finalize s.ci).h else s.seg0
        segcnt := s.segcnt + 1 }) := by
  by_cases h : s.segcnt = BitVec.ofNat 64 segMax
  · exact .inl ⟨h, segmentClose_full h⟩
  · rcases absorbAllOuter_cases (serialize (md4Finalize s.ci).h) { s with ci := md4Finalize s.ci } with
      ⟨co, hco, _⟩ | ⟨co, he⟩
    · exact .inr (.inr ⟨h, co, hco, segmentClose_some h hco⟩)
    · refine .inr (.inl ⟨co, ?_⟩)
      unfold segmentClose
      rw [if_neg h]
      dsimp only
      rw [he]; rfl

/-! ### Absorbing in ED2K mode (R171) -/

/-- Bytes that do not fill the segment enter CI and nothing else. -/
theorem absorbBytes_ed2k : ∀ (bs : List Byte) (s : State) (c : Context), s.mode = .ed2k →
    bs.foldlM md4Absorb s.ci = some c → s.ci.len.toNat + bs.length < chunkSize →
    absorbBytes bs s = .goOn { s with ci := c }
  | [], s, c, _, h, _ => by simp at h; subst h; rfl
  | b :: bs, s, c, hm, h, hl => by
    simp only [List.foldlM_cons, List.length_cons] at h hl
    cases hd : md4Absorb s.ci b with
    | none => simp [hd] at h
    | some d =>
      simp only [hd] at h
      have hdl : d.len.toNat = s.ci.len.toNat + 1 := by
        obtain ⟨e, he, hel⟩ := md4Absorb_isSome (c := s.ci) b (by simp only [chunkSize, lenMax] at *; omega)
        rw [hd] at he; cases he; exact hel
      have hne : d.len ≠ BitVec.ofNat 64 chunkSize := by
        intro e; rw [e] at hdl; simp [chunkSize] at hdl hl; omega
      simp only [absorbBytes, absorbByte_ed2k hm, ed2kAbsorb, absorbInner_some hd, andThen_goOn, if_neg hne]
      exact absorbBytes_ed2k bs { s with ci := d } c hm h (by dsimp only; omega)

/-- The bytes that fill the segment enter CI, and the segment is closed. -/
theorem absorbBytes_fills : ∀ (bs : List Byte) (s : State) (c : Context), s.mode = .ed2k →
    bs.foldlM md4Absorb s.ci = some c → s.ci.len.toNat + bs.length = chunkSize → bs ≠ [] →
    absorbBytes bs s = segmentClose { s with ci := c } := by
  intro bs s c hm h hl hne
  obtain ⟨as, b, rfl⟩ : ∃ as b, bs = as ++ [b] :=
    ⟨bs.dropLast, bs.getLast hne, (List.dropLast_append_getLast hne).symm⟩
  simp only [List.length_append, List.length_cons, List.length_nil] at hl
  obtain ⟨d, hd, hdl⟩ := absorbList_isSome as s.ci (by simp only [chunkSize, lenMax] at *; omega)
  obtain ⟨e, he, hel⟩ := md4Absorb_isSome (c := d) b (by simp only [chunkSize, lenMax] at *; omega)
  have hc : c = e := by
    simp [List.foldlM_append, hd, he] at h; exact h.symm
  subst hc
  have hlen : c.len = BitVec.ofNat 64 chunkSize := by
    apply BitVec.eq_of_toNat_eq; simp only [chunkSize, BitVec.toNat_ofNat] at *; omega
  rw [absorbBytes_append, absorbBytes_ed2k as s d hm hd (by omega)]
  simp only [andThen_goOn, absorbBytes]
  rw [absorbByte_ed2k (s := { s with ci := d }) hm]
  simp only [ed2kAbsorb, absorbInner_some (s := { s with ci := d }) he, andThen_goOn, hlen, if_pos]
  cases segmentClose { s with ci := c } <;> rfl

/-! ### What ABSORB and FINAL can change (R194, R196) -/

/-- What the statements of ABSORB keep of the state they start from: the host side and DG, and outside
ED2K mode also CO, SEGCNT and SEG0. -/
structure Keeps (s t : State) : Prop where
  host : SameHost s t
  dg : t.dg = s.dg
  outer : s.mode ≠ .ed2k → t.co = s.co ∧ t.segcnt = s.segcnt ∧ t.seg0 = s.seg0

theorem Keeps.refl (s : State) : Keeps s s := ⟨SameHost.refl s, rfl, fun _ => ⟨rfl, rfl, rfl⟩⟩

theorem Keeps.trans {s t u : State} (h : Keeps s t) (g : Keeps t u) : Keeps s u := by
  refine ⟨h.host.trans g.host, g.dg.trans h.dg, fun hm => ?_⟩
  obtain ⟨a, b, c⟩ := h.outer hm
  obtain ⟨d, e, f⟩ := g.outer (by rw [h.host.mode]; exact hm)
  exact ⟨d.trans a, e.trans b, f.trans c⟩

theorem Keeps.raiseError (code : ErrCode) (s : State) : Keeps s (raiseError code s) :=
  ⟨SameHost.raiseError code s, by rw [raiseError_eq], fun _ => by
    rw [raiseError_eq]; exact ⟨rfl, rfl, rfl⟩⟩

theorem Keeps.andThen {s : State} {f : Flow} {k : State → Flow} (hf : Keeps s f.state)
    (hk : ∀ t, Keeps s t → Keeps t (k t).state) : Keeps s (f.andThen k).state := by
  cases f with
  | goOn t => exact hf.trans (hk t hf)
  | ended t => exact hf

theorem absorbInner_keeps (b : Byte) (s : State) : Keeps s (absorbInner b s).state := by
  unfold absorbInner
  split
  · exact ⟨⟨rfl, rfl, rfl, rfl, rfl, rfl, rfl, rfl, rfl⟩, rfl, fun _ => ⟨rfl, rfl, rfl⟩⟩
  · exact Keeps.raiseError _ _

theorem segmentClose_keeps {s : State} (hm : s.mode = .ed2k) : Keeps s (segmentClose s).state := by
  have hk : ∀ ci co seg0 segcnt, Keeps s { s with ci := ci, co := co, seg0 := seg0, segcnt := segcnt } :=
    fun _ _ _ _ => ⟨⟨rfl, rfl, rfl, rfl, rfl, rfl, rfl, rfl, rfl⟩, rfl, fun h => absurd hm h⟩
  rcases segmentClose_cases s with ⟨_, h⟩ | ⟨co, h⟩ | ⟨_, co, _, h⟩ <;> rw [h]
  · exact Keeps.raiseError _ _
  · exact (hk _ _ _ _).trans (Keeps.raiseError _ _)
  · exact hk _ _ _ _

theorem ed2kAbsorb_keeps (b : Byte) {s : State} (hm : s.mode = .ed2k) :
    Keeps s (ed2kAbsorb b s).state := by
  unfold ed2kAbsorb
  refine Keeps.andThen (absorbInner_keeps b s) fun t ht => ?_
  split
  · exact segmentClose_keeps (ht.host.mode.trans hm)
  · exact Keeps.refl t

theorem absorbByte_keeps (b : Byte) (s : State) : Keeps s (absorbByte b s).state := by
  unfold absorbByte
  split
  · exact absorbInner_keeps b s
  · next hm => exact ed2kAbsorb_keeps b hm
  · exact Keeps.refl s

theorem absorbBytes_keeps : ∀ (bs : List Byte) (s : State), Keeps s (absorbBytes bs s).state
  | [], s => Keeps.refl s
  | b :: bs, s => Keeps.andThen (absorbByte_keeps b s) fun t _ => absorbBytes_keeps bs t

theorem requireActive_keeps (s : State) : Keeps s (requireActive s).state := by
  unfold requireActive
  split
  · exact Keeps.refl s
  · exact Keeps.refl s
  · exact Keeps.raiseError _ _
  · exact Keeps.raiseError _ _

/-- FINAL's middle statements keep what ABSORB's keep, but for DG. -/
theorem finalizeByMode_keeps (s : State) :
    SameHost s (finalizeByMode s).state ∧
    (s.mode ≠ .ed2k → (finalizeByMode s).state.co = s.co ∧
      (finalizeByMode s).state.segcnt = s.segcnt ∧ (finalizeByMode s).state.seg0 = s.seg0) := by
  unfold finalizeByMode
  split
  · exact ⟨⟨rfl, rfl, rfl, rfl, rfl, rfl, rfl, rfl, rfl⟩, fun _ => ⟨rfl, rfl, rfl⟩⟩
  · next hm =>
    refine ⟨?_, fun h => absurd hm h⟩
    have hseg : Keeps s (if s.ci.len = 0 then Flow.goOn s else segmentClose s).state := by
      split
      · exact Keeps.refl s
      · exact segmentClose_keeps hm
    unfold ed2kFinalize
    cases hf : (if s.ci.len = 0 then Flow.goOn s else segmentClose s) with
    | ended t => rw [hf] at hseg; exact hseg.host
    | goOn t =>
      rw [hf] at hseg
      refine hseg.host.trans ?_
      simp only [andThen_goOn, ed2kSelect]
      split <;> exact ⟨rfl, rfl, rfl, rfl, rfl, rfl, rfl, rfl, rfl⟩
  · exact ⟨SameHost.refl s, fun _ => ⟨rfl, rfl, rfl⟩⟩

end Sys2Proof.Machine
end

