-- ==== Sys2Proof/Laws/PerInstr.lean ====
section
/-! SUPPORT. Per-instruction facts about the commands as syntax: the fields of the encoded word. -/

namespace Sys2Proof.Laws

/-- R90, R91, R94, R95: the encoding of a well-formed command has RSV 0, the OP of R91, and NBM1 equal to
nb − 1 for an ABSORB and 0 for the others. -/
abbrev EncodedFields.Statement (i : Instr) : Prop :=
  i.WellFormed →
    rsvField (encode i) = 0 ∧
    opField (encode i) =
      (match i with | .md4Init => 1 | .ed2kInit => 2 | .absorb _ => 3 | .final => 4 | .clear => 5) ∧
    (nbm1Field (encode i)).toNat = (match i with | .absorb nb => nb - 1 | _ => 0)

theorem EncodedFields.md4Init : EncodedFields.Statement .md4Init := by decide

theorem EncodedFields.ed2kInit : EncodedFields.Statement .ed2kInit := by decide

theorem EncodedFields.absorb (nb : Nat) : EncodedFields.Statement (.absorb nb) := by
  intro h
  rcases absorb_wf_cases h with rfl | rfl | rfl | rfl <;> decide

theorem EncodedFields.final : EncodedFields.Statement .final := by decide

theorem EncodedFields.clear : EncodedFields.Statement .clear := by decide

end Sys2Proof.Laws
end

