-- ==== Sys2Proof/Laws/Window.lean ====
section
/-! SUPPORT. The register window: which register stands at each offset, when an access is defined and
held, and what an access and the bus can do. -/

namespace Sys2Proof.Machine

/-! ### The map (10_state.md section 5) -/

@[simp] theorem regAt_00 : regAt 0x00 = .id := rfl
@[simp] theorem regAt_04 : regAt 0x04 = .cmd := rfl
@[simp] theorem regAt_08 : regAt 0x08 = .status := rfl
@[simp] theorem regAt_0C : regAt 0x0C = .din := rfl
@[simp] theorem regAt_10 : regAt 0x10 = .digest 0 := rfl
@[simp] theorem regAt_14 : regAt 0x14 = .digest 1 := rfl
@[simp] theorem regAt_18 : regAt 0x18 = .digest 2 := rfl
@[simp] theorem regAt_1C : regAt 0x1C = .digest 3 := rfl
@[simp] theorem regAt_20 : regAt 0x20 = .state 0 := rfl
@[simp] theorem regAt_24 : regAt 0x24 = .state 1 := rfl
@[simp] theorem regAt_28 : regAt 0x28 = .state 2 := rfl
@[simp] theorem regAt_2C : regAt 0x2C = .state 3 := rfl
@[simp] theorem regAt_30 : regAt 0x30 = .lenLo := rfl
@[simp] theorem regAt_34 : regAt 0x34 = .lenHi := rfl
@[simp] theorem regAt_38 : regAt 0x38 = .segcntLo := rfl
@[simp] theorem regAt_3C : regAt 0x3C = .segcntHi := rfl
@[simp] theorem regAt_40 : regAt 0x40 = .chunk := rfl

theorem regAt_reserved {off : BitVec 7} (h : 0x44 ≤ off.toNat) : regAt off = .reserved := by
  unfold regAt; split <;> first | rfl | omega

/-! ### Defined accesses (R63) -/

@[simp] theorem isDefined_iff (a : BusAccess) :
    a.isDefined = true ↔ a.size = .bits32 ∧ a.off.toNat % 4 = 0 := by
  unfold BusAccess.isDefined; split <;> simp_all

theorem isDefined_busRead {off : BitVec 7} (h : off.toNat % 4 = 0) : (busRead off).isDefined = true :=
  (isDefined_iff _).2 ⟨rfl, h⟩

theorem isDefined_busWrite {off : BitVec 7} {v : Word} (h : off.toNat % 4 = 0) :
    (busWrite off v).isDefined = true := (isDefined_iff _).2 ⟨rfl, h⟩

theorem performAccess_read {off : BitVec 7} (s : State) (h : off.toNat % 4 = 0) :
    performAccess (busRead off) s = (s, .data (readReg (regAt off) s)) := by
  simp [performAccess, isDefined_busRead h]; rfl

theorem performAccess_write {off : BitVec 7} (v : Word) (s : State) (h : off.toNat % 4 = 0) :
    performAccess (busWrite off v) s = (writeReg (regAt off) v s, .written) := by
  simp [performAccess, isDefined_busWrite h]; rfl

theorem performAccess_undefined {a : BusAccess} (s : State) (h : a.isDefined = false) :
    performAccess a s = (s, errorReply a.op) := by simp [performAccess, h]

theorem isHeld_busRead {off : BitVec 7} (s : State) (h : off.toNat % 4 = 0) :
    isHeld (busRead off) s = (s.busy && readHeldWhileBusy (regAt off)) := by
  simp [isHeld, isDefined_busRead h]; rfl

theorem isHeld_busWrite {off : BitVec 7} (v : Word) (s : State) (h : off.toNat % 4 = 0) :
    isHeld (busWrite off v) s = (s.busy && writeHeldWhileBusy (regAt off)) := by
  simp [isHeld, isDefined_busWrite h]; rfl

/-- Nothing is held while BUSY = 0 (R66). -/
@[simp] theorem isHeld_of_not_busy (a : BusAccess) {s : State} (h : s.busy = false) :
    isHeld a s = false := by simp [isHeld, h]

/-- Whether an access is held depends on BUSY alone. -/
theorem isHeld_congr (a : BusAccess) {s t : State} (h : t.busy = s.busy) : isHeld a t = isHeld a s := by
  simp [isHeld, h]

/-! ### What an access does (R68) -/

/-- A write has one of three effects: a command accepted, DIN set, nothing. -/
theorem writeReg_cases (r : Reg) (v : Word) (s : State) :
    r = .cmd ∧ writeReg r v s = acceptCommand v s ∨ r = .din ∧ writeReg r v s = { s with din := v } ∨
      r ≠ .cmd ∧ r ≠ .din ∧ writeReg r v s = s := by
  cases r <;> simp [writeReg]

/-- An access leaves the state, accepts a command, or sets DIN. -/
theorem performAccess_cases (a : BusAccess) (s : State) :
    (performAccess a s).1 = s ∨
    (∃ v, a.op = .write v ∧ regAt a.off = .cmd ∧ (performAccess a s).1 = acceptCommand v s) ∨
    (∃ v, a.op = .write v ∧ regAt a.off = .din ∧ (performAccess a s).1 = { s with din := v }) := by
  unfold performAccess
  split
  · cases hop : a.op with
    | read => exact .inl rfl
    | write v =>
      rcases writeReg_cases (regAt a.off) v s with ⟨h, e⟩ | ⟨h, e⟩ | ⟨_, _, e⟩
      · exact .inr (.inl ⟨v, rfl, h, e⟩)
      · exact .inr (.inr ⟨v, rfl, h, e⟩)
      · exact .inl e
  · exact .inl rfl

/-! ### What the bus does (R66, R70) -/

@[simp] theorem busStep_nil {s : State} (h : s.bus = []) : busStep s = s := by simp [busStep, h]

theorem busStep_held {s : State} {a : BusAccess} {rest : List BusAccess} (h : s.bus = a :: rest)
    (hh : isHeld a s = true) : busStep s = s := by simp [busStep, h, hh]

theorem busStep_done {s : State} {a : BusAccess} {rest : List BusAccess} (h : s.bus = a :: rest)
    (hh : isHeld a s = false) :
    busStep s = { (performAccess a { s with bus := rest }).1 with
      replies := s.replies ++ [(performAccess a { s with bus := rest }).2] } := by
  simp [busStep, h, hh]

/-- What a host access cannot touch: the computation. -/
structure SameComputation (s t : State) : Prop where
  phase : t.phase = s.phase
  mode : t.mode = s.mode
  errcode : t.errcode = s.errcode
  dg : t.dg = s.dg
  ci : t.ci = s.ci
  co : t.co = s.co
  segcnt : t.segcnt = s.segcnt
  seg0 : t.seg0 = s.seg0

/-- What the bus does leaves the computation and the reset input as they were. -/
theorem busStep_computation (s : State) :
    SameComputation s (busStep s) ∧ (busStep s).resetIn = s.resetIn := by
  rcases h : s.bus with _ | ⟨a, rest⟩
  · rw [busStep_nil h]; exact ⟨⟨rfl, rfl, rfl, rfl, rfl, rfl, rfl, rfl⟩, rfl⟩
  · cases hh : isHeld a s
    · rw [busStep_done h hh]
      rcases performAccess_cases a { s with bus := rest } with e | ⟨v, _, _, e⟩ | ⟨v, _, _, e⟩ <;> rw [e] <;>
        exact ⟨⟨rfl, rfl, rfl, rfl, rfl, rfl, rfl, rfl⟩, rfl⟩
    · rw [busStep_held h hh]; exact ⟨⟨rfl, rfl, rfl, rfl, rfl, rfl, rfl, rfl⟩, rfl⟩

/-- While a command is pending, what the bus does leaves BUSY, PEND and the latency alone (R73). -/
theorem busStep_pending {s : State} (hb : s.busy = true) :
    (busStep s).busy = true ∧ (busStep s).pend = s.pend ∧ (busStep s).delay = s.delay ∧
    (busStep s).accepted = s.accepted := by
  rcases h : s.bus with _ | ⟨a, rest⟩
  · rw [busStep_nil h]; exact ⟨hb, rfl, rfl, rfl⟩
  · cases hh : isHeld a s
    · rw [busStep_done h hh]
      rcases performAccess_cases a { s with bus := rest } with e | ⟨v, ho, hr, e⟩ | ⟨v, _, _, e⟩
      · rw [e]; exact ⟨hb, rfl, rfl, rfl⟩
      · cases hd : a.isDefined with
        | true => simp [isHeld, hb, hd, ho, hr, heldWhileBusy, writeHeldWhileBusy] at hh
        | false => rw [performAccess_undefined _ hd]; exact ⟨hb, rfl, rfl, rfl⟩
      · rw [e]; exact ⟨hb, rfl, rfl, rfl⟩
    · rw [busStep_held h hh]; exact ⟨hb, rfl, rfl, rfl⟩

end Sys2Proof.Machine
end

