-- ==== Sys2Proof/Laws/Step.lean ====
section
/-! SUPPORT. What one step can do, said once: reset, the execution step, or what the bus brings; and runs
of several steps. -/

namespace Sys2Proof.Machine

/-- Every command answers a next state. -/
theorem exec_answers (i : Instr) (s : State) : ∃ t, exec i s = .next t := by cases i <;> exact ⟨_, rfl⟩

theorem executePending_answers (s : State) : ∃ t, executePending s = .next t := by
  unfold executePending
  split
  · exact exec_answers _ _
  · exact ⟨_, rfl⟩

/-- What the execution step can do: a command of the five, or ILLEGAL_CMD; then BUSY is cleared. -/
theorem executionStep_cases {s t : State} (h : executionStep s = .next t) :
    (∃ i u, decode s.pend.cmd = .ok i ∧ exec i s = .next u ∧ t = { u with busy := false }) ∨
    (∃ e, decode s.pend.cmd = .error e ∧ t = { raiseError .illegalCmd s with busy := false }) := by
  unfold executionStep executePending at h
  split at h
  · next i hi =>
    obtain ⟨u, hu⟩ := exec_answers i s
    rw [hu] at h; cases h
    exact .inl ⟨i, u, hi, hu, rfl⟩
  · next e he => cases h; exact .inr ⟨e, he, rfl⟩

/-- A command's `Execute` never touches the host side: the reset input, the accesses issued, the
replies, the count of acceptances. -/
theorem exec_hostSide {i : Instr} {s t : State} (h : exec i s = .next t) :
    t.resetIn = s.resetIn ∧ t.bus = s.bus ∧ t.replies = s.replies ∧ t.accepted = s.accepted := by
  have host : ∀ {u : State}, SameHost s u →
      u.resetIn = s.resetIn ∧ u.bus = s.bus ∧ u.replies = s.replies ∧ u.accepted = s.accepted :=
    fun k => ⟨k.resetIn, k.bus, k.replies, k.accepted⟩
  cases i with
  | md4Init => cases h; exact ⟨rfl, rfl, rfl, rfl⟩
  | ed2kInit => cases h; exact ⟨rfl, rfl, rfl, rfl⟩
  | clear => cases h; exact ⟨rfl, rfl, rfl, rfl⟩
  | absorb nb =>
    cases h
    exact host (Keeps.andThen (requireActive_keeps s) fun t _ => absorbBytes_keeps _ t).host
  | final =>
    cases h
    apply host
    cases hg : requireActive s with
    | ended t => have := (requireActive_keeps s).host; rw [hg] at this; exact this
    | goOn t =>
      obtain ⟨-, rfl⟩ := requireActive_goOn hg
      simp only [andThen_goOn]
      have hk := (finalizeByMode_keeps t).1
      cases hf : finalizeByMode t with
      | ended u => rw [hf] at hk; exact hk
      | goOn u =>
        rw [hf] at hk
        exact ⟨hk.mode, hk.busy, hk.pend, hk.din, hk.resetIn, hk.delay, hk.accepted, hk.bus, hk.replies⟩

theorem executionStep_answers (s : State) : ∃ t, executionStep s = .next t := by
  obtain ⟨t, h⟩ := executePending_answers s
  exact ⟨{ t with busy := false }, by simp [executionStep, h, clearBusy]⟩

/-- The execution step clears BUSY and never touches the host side. -/
theorem executionStep_hostSide {s t : State} (h : executionStep s = .next t) :
    t.busy = false ∧ t.resetIn = s.resetIn ∧ t.bus = s.bus ∧ t.replies = s.replies ∧
    t.accepted = s.accepted := by
  rcases executionStep_cases h with ⟨i, u, -, hu, rfl⟩ | ⟨e, -, rfl⟩
  · have hh := exec_hostSide hu
    exact ⟨rfl, hh⟩
  · rw [raiseError_eq]; exact ⟨rfl, rfl, rfl, rfl, rfl⟩

theorem step_reset {s : State} (h : s.resetIn = true) : step s = .next (resetStep s) := by
  simp [step, machineStep, h]

theorem step_due {s : State} (h : s.resetIn = false) (hb : s.busy = true) (hd : s.delay = 0) :
    step s = executionStep s := by simp [step, machineStep, h, hb, hd]

theorem step_waits {s : State} {d : Nat} (h : s.resetIn = false) (hb : s.busy = true)
    (hd : s.delay = d + 1) : step s = .next (busStep { s with delay := d }) := by
  simp [step, machineStep, h, hb, hd]

theorem step_free {s : State} (h : s.resetIn = false) (hb : s.busy = false) :
    step s = .next (busStep s) := by simp [step, machineStep, h, hb]

/-- Everything a step can do. -/
theorem step_cases {s t : State} (h : step s = .next t) :
    (s.resetIn = true ∧ t = resetStep s) ∨
    (s.resetIn = false ∧ s.busy = true ∧ s.delay = 0 ∧ executionStep s = .next t) ∨
    (∃ d, s.resetIn = false ∧ s.busy = true ∧ s.delay = d + 1 ∧ t = busStep { s with delay := d }) ∨
    (s.resetIn = false ∧ s.busy = false ∧ t = busStep s) := by
  rcases Bool.eq_false_or_eq_true s.resetIn with hr | hr
  · rw [step_reset hr] at h; cases h; exact .inl ⟨hr, rfl⟩
  rcases Bool.eq_false_or_eq_true s.busy with hb | hb
  · rcases Nat.eq_zero_or_eq_succ_pred s.delay with hd | hd
    · rw [step_due hr hb hd] at h; exact .inr (.inl ⟨hr, hb, hd, h⟩)
    · rw [step_waits hr hb hd] at h; cases h
      exact .inr (.inr (.inl ⟨_, hr, hb, hd, rfl⟩))
  · rw [step_free hr hb] at h; cases h; exact .inr (.inr (.inr ⟨hr, hb, rfl⟩))

/-- The reset input leaves the reset values, but for what the host side holds. -/
theorem resetStep_eq (s : State) :
    resetStep s =
      { clearEngine s with bus := (resetStep s).bus, replies := (resetStep s).replies } := by
  unfold resetStep
  split
  · rfl
  · split <;> rfl

/-- Driving the reset input to asserted, or an asserted one, is a reset. -/
theorem driveReset_resets {level : Bool} {s : State} (h : level = true ∨ s.resetIn = true) :
    s.driveReset level = { resetStep s with resetIn := level } := by
  have h' : (level || s.resetIn) = true := by simpa using h
  simp only [State.driveReset, h', if_pos]

/-- Driving a released reset input to released does nothing. -/
theorem driveReset_released {s : State} (h : s.resetIn = false) : s.driveReset false = s := by
  simp only [State.driveReset, h, Bool.or_self, Bool.false_eq_true, if_neg, not_false_eq_true]
  cases s; cases h; rfl

/-! ### The host at work -/

/-- Accesses issued go to the end of the bus, and touch nothing else. -/
theorem issueAll_eq (accesses : List BusAccess) (s : State) :
    s.issueAll accesses = { s with bus := s.bus ++ accesses } := by
  induction accesses generalizing s with
  | nil => simp [State.issueAll]
  | cons a as ih => exact (ih (s.issue a)).trans (by simp [State.issue])

/-- A step of the latency: the command stays pending, one step nearer, and the computation stands. -/
theorem step_latency {s : State} {d : Nat} (hr : s.resetIn = false) (hb : s.busy = true)
    (hd : s.delay = d + 1) :
    ∃ t, step s = .next t ∧ t.resetIn = false ∧ t.busy = true ∧ t.delay = d ∧ t.pend = s.pend ∧
      SameComputation s t := by
  obtain ⟨b, p, dl, -⟩ := busStep_pending (s := { s with delay := d }) hb
  obtain ⟨c, r⟩ := busStep_computation { s with delay := d }
  exact ⟨_, step_waits hr hb hd, r.trans hr, b, dl, p, ⟨c.1, c.2, c.3, c.4, c.5, c.6, c.7, c.8⟩⟩

theorem runIssuing_cons {accesses : List BusAccess} {later : List (List BusAccess)} {s t : State}
    (h : step (s.issueAll accesses) = .next t) :
    runIssuing (accesses :: later) s = runIssuing later t := by simp only [runIssuing, h]

theorem runIssuing_append {first later : List (List BusAccess)} {s t : State}
    (h : runIssuing first s = .next t) : runIssuing (first ++ later) s = runIssuing later t := by
  induction first generalizing s with
  | nil => cases h; rfl
  | cons accesses first ih =>
    cases hs : step (s.issueAll accesses) with
    | next u => rw [runIssuing_cons hs] at h; rw [List.cons_append, runIssuing_cons hs, ih h]
    | fault r => exact nomatch r
    | refused r => simp only [runIssuing, hs] at h; cases h

/-- A host that waits has its answer. -/
theorem awaitData_answered {k : Nat} {s : State} {v : Word} (steps : Nat)
    (h : s.replies[k]? = some (.data v)) : awaitData steps k s = some (v, s) := by
  unfold awaitData; simp only [h]

/-- A host that waits lets the machine step. -/
theorem awaitData_step {k : Nat} {s t : State} (steps : Nat) (hk : s.replies.length ≤ k)
    (h : step s = .next t) : awaitData (steps + 1) k s = awaitData steps k t := by
  conv => lhs; unfold awaitData
  simp only [List.getElem?_eq_none hk, h]

/-- More steps than it takes change nothing. -/
theorem awaitData_mono {m n k : Nat} (hmn : m ≤ n) {s : State} {r : Word × State}
    (h : awaitData m k s = some r) : awaitData n k s = some r := by
  induction m generalizing n s with
  | zero =>
    cases e : s.replies[k]? with
    | none => unfold awaitData at h; simp only [e] at h; cases h
    | some reply => unfold awaitData at h ⊢; simp only [e] at h ⊢; cases reply <;> exact h
  | succ m ih =>
    obtain ⟨n, rfl⟩ : ∃ n', n = n' + 1 := ⟨n - 1, by omega⟩
    cases e : s.replies[k]? with
    | some reply => unfold awaitData at h ⊢; simp only [e] at h ⊢; cases reply <;> exact h
    | none =>
      have hk := List.getElem?_eq_none_iff.1 e
      cases hs : step s with
      | next t => rw [awaitData_step m hk hs] at h; rw [awaitData_step n hk hs]; exact ih (by omega) h
      | fault f => exact nomatch f
      | refused f => unfold awaitData at h; simp only [e, hs] at h; cases h

/-! ### Runs -/

@[simp] theorem runSteps_zero (s : State) : runSteps 0 s = .next s := rfl

theorem runSteps_succ {n : Nat} {s t : State} (h : step s = .next t) :
    runSteps (n + 1) s = runSteps n t := by
  have hc : Sys2Proof.core.step s = .next t := h
  simp only [runSteps, Host.Core.run, hc]; rfl

theorem runSteps_refused {n : Nat} {s : State} {r : Refusal} (h : step s = .refused r) :
    runSteps (n + 1) s = .refused r := by
  have hc : Sys2Proof.core.step s = .refused r := h
  simp only [runSteps, Host.Core.run, hc]; rfl

theorem runSteps_add {m n : Nat} {s t : State} (h : runSteps m s = .next t) :
    runSteps (m + n) s = runSteps n t := by
  induction m generalizing s with
  | zero => cases h; simp
  | succ m ih =>
    cases hs : step s with
    | next u =>
      rw [runSteps_succ hs] at h
      rw [Nat.add_right_comm, runSteps_succ hs, ih h]
    | fault r => exact nomatch r
    | refused r => rw [runSteps_refused hs] at h; cases h

end Sys2Proof.Machine
end

