-- ==== Sys2Proof/Tests/Slice0.lean ====
section
/-! SUPPORT. The model's own tests: the smoke test of WellFormed, command words written out bit by bit,
vectors of spec/95_test_vectors.md (named by their ids; every expected value is the spec's), and for
each statement with hypotheses a state and operands that meet them. -/

namespace Sys2Proof.Tests

open Sys2Proof Sys2Proof.Machine

/-! ## Helpers -/

/-- The machine with a started computation and nothing absorbed yet. -/
def started (m : Mode) : State := { State.reset with phase := .active, mode := m, ci := md4Init }

/-- The same with LEN and SEGCNT set, and CO.LEN as R170 has it (section 2.10: "A model may set the
counters directly"). -/
def counted (m : Mode) (len segcnt : Nat) : State :=
  { started m with
    ci := { md4Init with len := BitVec.ofNat 64 len }
    co := { md4Init with len := BitVec.ofNat 64 (16 * segcnt) }
    segcnt := BitVec.ofNat 64 segcnt }

/-- A command word pending and due, with `d` steps of its latency left. -/
def pendingWord (c : Word) (d : Nat) (s : State) : State :=
  { s with pend := ⟨c, s.din⟩, busy := true, delay := d }

/-- Something about the state after one step that runs the command word `w`. -/
def afterWord {α : Type} (w : Nat) (s : State) (f : State → α) : Option α :=
  match step (s.withFetchWord 32 w) with
  | .next t => some (f t)
  | .fault _ => none
  | .refused _ => none

/-- Something about the state after a command's meaning. -/
def afterExec {α : Type} (i : Instr) (s : State) (f : State → α) : Option α :=
  match exec i s with
  | .next t => some (f t)
  | .fault _ => none
  | .refused _ => none

/-! ## WellFormed (R94, R97) -/

theorem test_wellFormed_absorb : ∀ nb ∈ [1, 2, 3, 4], (Instr.absorb nb).WellFormed := by decide

theorem test_wellFormed_refuses_absorb_0 : ¬ (Instr.absorb 0).WellFormed := by decide

theorem test_wellFormed_refuses_absorb_5 : ¬ (Instr.absorb 5).WellFormed := by decide

/-! ## Decoding: RSV (26 bits), NBM1 (2 bits), OP (4 bits), written out from R90, R91 and R94 -/

theorem test_decode_md4Init : decode 0b00000000000000000000000000_00_0001 = .ok .md4Init := by decide

theorem test_decode_ed2kInit : decode 0b00000000000000000000000000_00_0010 = .ok .ed2kInit := by decide

theorem test_decode_absorb :
    decode 0b00000000000000000000000000_00_0011 = .ok (.absorb 1) ∧
    decode 0b00000000000000000000000000_01_0011 = .ok (.absorb 2) ∧
    decode 0b00000000000000000000000000_10_0011 = .ok (.absorb 3) ∧
    decode 0b00000000000000000000000000_11_0011 = .ok (.absorb 4) := by decide

theorem test_decode_final : decode 0b00000000000000000000000000_00_0100 = .ok .final := by decide

theorem test_decode_clear : decode 0b00000000000000000000000000_00_0101 = .ok .clear := by decide

/-- V-K15, V-K16 and V-K12: the illegal words the spec lists, each with its reason (R231). -/
theorem test_decode_rejects :
    [0x00000000, 0x00000006, 0x00000007, 0x0000000F, 0x00000040, 0x00000043, 0x00000101, 0x80000001,
      0x00000012, 0x00000014, 0x00000015, (0x00000024 : Word)].map decode =
      List.replicate 4 (.error .reservedOp) ++ List.replicate 4 (.error .nonzeroRsv) ++
        List.replicate 4 (.error .nonzeroNbm1) := rfl

/-- R64: the byte lanes of a command word, lane 0 first. -/
theorem test_decodeBytes : decodeBytes [0x13, 0x00, 0x00, 0x00, 0xAA] = some (.absorb 2, [0xAA]) := by decide

theorem test_decodeTableWord :
    [0x1, 0x2, 0x33, 0x4, 0x5, 0x6].map (decodeTableWord 32) =
      [some .md4Init, some .ed2kInit, some (.absorb 4), some .final, some .clear, none] := by decide

/-! ## Operations (sections 2.1 to 2.5) -/

theorem test_roundFunctions :
    roundF 0xFFFF0000 0xFF00FF00 0xF0F0F0F0 = 0xFF00F0F0 ∧
    roundG 0xFFFF0000 0xFF00FF00 0xF0F0F0F0 = 0xFFF0F000 ∧
    roundH 0xFFFF0000 0xFF00FF00 0xF0F0F0F0 = 0xF00F0FF0 ∧
    roundF 0xEFCDAB89 0x98BADCFE 0x10325476 = 0x98BADCFE := by decide

theorem test_rotl :
    rotl 0xDEADBEEF 7 = 0x56DF77EF ∧ rotl 0x12345678 31 = 0x091A2B3C ∧ rotl 0x00000001 31 = 0x80000000 := by
  decide

/-- Section 2.4. -/
theorem test_pad :
    (pad 55).length = 9 ∧ (pad 56).length = 72 ∧ (pad 0).length = 64 ∧
    (pad 55).drop 1 = [0xb8, 0x01, 0x00, 0x00, 0x00, 0x00, 0x00, 0x00] ∧
    (pad lenMax).length = 65 ∧
    (pad lenMax).drop 57 = [0xf8, 0xff, 0xff, 0xff, 0xff, 0xff, 0xff, 0xff] := by decide +kernel

/-- V-C7: the block of the bytes 00 to 3F. -/
theorem test_compress_counting_bytes :
    compress iv (Vector.ofFn fun i => BitVec.ofNat 8 i.val) =
      #v[0x4ECABFD4, 0xA26EF3A6, 0xC90C1563, 0xDB599A46] := by decide +kernel

/-- V-C5: h all ones, the feed-forward wraps. -/
theorem test_compress_wraps :
    compress (Vector.replicate 4 0xFFFFFFFF) (Vector.replicate 64 0) =
      #v[0xA6F4DD09, 0x9BAE83F0, 0xA57D1BCE, 0x38337984] := by decide +kernel

/-- V-M7, a message of two blocks. -/
theorem test_md4Digest_80 :
    md4Digest (List.replicate 8 [0x31, 0x32, 0x33, 0x34, 0x35, 0x36, 0x37, 0x38, 0x39, 0x30]).flatten =
      [0xe3, 0x3b, 0x4d, 0xdc, 0x9c, 0x38, 0xf2, 0x19, 0x9c, 0x3e, 0x7b, 0x16, 0x4f, 0xcc, 0x05, 0x36] := by
  decide +kernel

/-! ## Commands (sections 2.9 and 2.10), one step each -/

/-- V-K2. -/
theorem test_md4Init :
    afterWord 0x1 State.reset (fun t => (statusWord t, readReg (.state 0) t, readReg (.state 3) t)) =
      some (0x00000012, 0x67452301, 0x10325476) := by decide

/-- V-K13: MD4_INIT leaves ERROR. -/
theorem test_md4Init_from_error :
    afterWord 0x1 { State.reset with phase := .error, errcode := .sequence } statusWord = some 0x00000012 := by
  decide

/-- V-K3 and V-B1. -/
theorem test_ed2kInit :
    afterWord 0x2 State.reset (fun t => (statusWord t, t.co.h, readReg (.state 1) t)) =
      some (0x00000022, #v[0x67452301, 0xEFCDAB89, 0x98BADCFE, 0x10325476], 0xEFCDAB89) := by decide

/-- V-K20: the bytes 61 62 63 00 of DIN, in this order. -/
theorem test_absorb :
    afterWord 0x33 { started .md4 with din := 0x00636261 }
      (fun t => (statusWord t, t.ci.len, t.ci.buf[0], t.ci.buf[1], t.ci.buf[2], t.ci.buf[3])) =
      some (0x00000012, 4, 0x61, 0x62, 0x63, 0x00) := by decide

/-- V-O1: the overflow at the second byte of four. -/
theorem test_absorb_overflow :
    afterWord 0x33 { counted .md4 (lenMax - 1) 0 with din := 0x44332211 }
      (fun t => (statusWord t, readReg .lenLo t, readReg .lenHi t, t.ci.buf[62], t.ci.buf[63])) =
      some (0x00000316, 0xFFFFFFFF, 0x1FFFFFFF, 0x11, 0x00) := by decide +kernel

/-- V-K4, V-M1. -/
theorem test_final :
    afterWord 0x4 (started .md4) (fun t => (statusWord t, readReg (.digest 0) t, readReg (.state 3) t)) =
      some (0x00000014, 0xE0CFD631, 0xC089C0E0) := by decide +kernel

/-- V-E2: two closed segments, each with the digest d_z; the second pass hashes their 32 bytes. -/
theorem test_final_two_segments :
    afterWord 0x4
      { started .ed2k with
        segcnt := 2
        co := ((serialize #v[0x62F2DED7, 0x79CD27A1, 0x8E106A09, 0x38C19F7A] ++
          serialize #v[0x62F2DED7, 0x79CD27A1, 0x8E106A09, 0x38C19F7A]).foldlM md4Absorb md4Init).getD md4Init }
      (fun t => (statusWord t, serialize t.dg)) =
      some (0x00000024, [0x19, 0x4e, 0xe9, 0xe4, 0xfa, 0x79, 0xb2, 0xee, 0x9f, 0x88, 0x29, 0x28, 0x4c, 0x46,
        0x60, 0x51]) := by decide +kernel

/-- V-K18. -/
theorem test_clear :
    afterWord 0x5 { started .md4 with din := 0x11223344 } (fun t => (statusWord t, t.din, t.ci, t.busy)) =
      some (0, 0, Context.zero, false) := by decide

/-- V-K16, V-K12: an illegal word in ACTIVE, and in ERROR. -/
theorem test_illegal :
    afterWord 0x43 (started .md4) statusWord = some 0x00000116 ∧
    afterWord 0x7 { State.reset with phase := .error, errcode := .sequence } statusWord = some 0x00000206 := by
  decide

/-- V-U3, V-U6: a read of CMD issues nothing; a misaligned read gets the bus error. -/
theorem test_bus :
    performAccess (busRead 0x04) State.reset = (State.reset, .data 0) ∧
    performAccess (busRead 0x02) State.reset = (State.reset, .readError 0) ∧
    performAccess ⟨0x0C, .bits16, .write 1⟩ State.reset = (State.reset, .writeError) := by decide

/-- R260: an assertion of reset that no step falls under discards the pending command and resets. -/
theorem test_reset_pulse :
    ((pendingWord 0x4 3 (started .md4)).driveReset true).driveReset false = State.reset := by decide

/-! ## Witnesses: the hypotheses of the statements can be met, at the ends of their ranges -/

theorem witness_MatchMaskTableAgrees : decode 0x33 = .ok (.absorb 4) ∧ decode 0x03 = .ok (.absorb 1) := by
  decide

theorem witness_ResultRegistersRead :
    (0x10 : BitVec 7).toNat = 0x10 + 4 * (0 : Fin 4).val ∧ (0x1C : BitVec 7).toNat = 0x10 + 4 * (3 : Fin 4).val ∧
    (0x20 : BitVec 7).toNat = 0x20 + 4 * (0 : Fin 4).val ∧
    (0x2C : BitVec 7).toNat = 0x20 + 4 * (3 : Fin 4).val := by decide

theorem witness_ReservedOffsets :
    ∀ off ∈ [0x44, (0x7C : BitVec 7)], off.toNat % 4 = 0 ∧ 0x44 ≤ off.toNat := by decide

theorem witness_UndefinedAccessGetsBusError :
    ∀ a ∈ [(⟨0x00, .bits8, .read⟩ : BusAccess), ⟨0x7C, .wider, .write 1⟩, busRead 0x7F, busWrite 0x01 5],
      (a.size ≠ .bits32 ∨ a.off.toNat % 4 ≠ 0) ∧ ({ State.reset with bus := [a] } : State).bus = [a] := by
  decide

/-- Both sides of the condition, at its ends: held at CMD (write), 0x10 and 0x3C (reads), and not held at
0x0C, 0x40 and CMD (read). -/
theorem witness_HeldAccesses :
    (∀ a ∈ [busWrite 0x04 1, busRead 0x10, busRead 0x3C],
      (pendingWord 1 0 { State.reset with bus := [a] }).bus = [a] ∧ a.size = .bits32 ∧ a.off.toNat % 4 = 0 ∧
        isHeld a (pendingWord 1 0 { State.reset with bus := [a] }) = true) ∧
    (∀ a ∈ [busWrite 0x0C 1, busRead 0x0C, busRead 0x40, busRead 0x04, busWrite 0x10 1],
      (pendingWord 1 0 { State.reset with bus := [a] }).bus = [a] ∧ a.size = .bits32 ∧ a.off.toNat % 4 = 0 ∧
        isHeld a (pendingWord 1 0 { State.reset with bus := [a] }) = false) := by decide

theorem witness_AccessEffects :
    ∀ off ∈ [0x0C, 0x04, 0x00, (0x7C : BitVec 7)], off.toNat % 4 = 0 := by decide

theorem witness_LaterDinWriteLeavesPending :
    ({ State.reset with bus := [busWrite 0x04 0x03, busWrite 0x0C 7] } : State).busy = false ∧
    ({ State.reset with bus := [busWrite 0x04 0x03, busWrite 0x0C 7] } : State).bus =
      [busWrite 0x04 0x03, busWrite 0x0C 7] := by decide

theorem witness_StepRunsPendingCommand :
    (pendingWord 0x13 0 State.reset).resetIn = false ∧ (pendingWord 0x13 0 State.reset).busy = true ∧
    (pendingWord 0x13 0 State.reset).delay = 0 ∧
    decode (pendingWord 0x13 0 State.reset).pend.cmd = .ok (.absorb 2) := by decide

/-- One word for each kind of R231 (a reserved OP at both ends, RSV at both ends, NBM1), pending and due. -/
theorem witness_IllegalWordRaises :
    ((0x00000000 : Word).extractLsb' 0 4 ∉ [0x1, 0x2, 0x3, 0x4, (0x5 : BitVec 4)] ∧
      (0x0000000F : Word).extractLsb' 0 4 ∉ [0x1, 0x2, 0x3, 0x4, (0x5 : BitVec 4)]) ∧
    ((0x00000041 : Word).extractLsb' 6 26 ≠ (0 : BitVec 26) ∧
      (0x80000001 : Word).extractLsb' 6 26 ≠ (0 : BitVec 26)) ∧
    ((0x00000012 : Word).extractLsb' 4 2 ≠ (0 : BitVec 2) ∧
      (0x00000012 : Word).extractLsb' 0 4 ≠ (0x3 : BitVec 4)) ∧
    ∀ c ∈ [0x00000000, 0x0000000F, 0x00000041, 0x80000001, (0x00000012 : Word)],
      (pendingWord c 0 (started .md4)).resetIn = false ∧ (pendingWord c 0 (started .md4)).busy = true ∧
        (pendingWord c 0 (started .md4)).delay = 0 ∧ (pendingWord c 0 (started .md4)).pend.cmd = c := by
  refine ⟨by decide, by decide, by decide, fun c _ => ⟨rfl, rfl, rfl, rfl⟩⟩

theorem witness_StepAnswersTheBus :
    State.reset.resetIn = false ∧ State.reset.busy = false ∧ (pendingWord 1 1 State.reset).resetIn = false ∧
    (pendingWord 1 1 State.reset).busy = true ∧ (pendingWord 1 1 State.reset).delay = 0 + 1 := by decide

/-- A step that is no execution step; and a legal and an illegal word that are no ABSORB. -/
theorem witness_OnlyExecutionTouchesComputation :
    (∃ t, (started .md4).resetIn = false ∧ ¬ ((started .md4).busy = true ∧ (started .md4).delay = 0) ∧
      step (started .md4) = .next t) ∧
    (∀ nb, decode (pendingWord 0x4 0 (started .md4)).pend.cmd ≠ .ok (.absorb nb)) ∧
    (∀ nb, decode (pendingWord 0x0 0 (started .md4)).pend.cmd ≠ .ok (.absorb nb)) := by
  refine ⟨⟨started .md4, by decide, by decide, rfl⟩, fun nb h => ?_, fun nb h => ?_⟩ <;> cases h

/-- No latency and no input; three steps of latency with an access before the first and two before the
last. -/
theorem witness_PendingCommandExecutes :
    (pendingWord 1 0 State.reset).resetIn = false ∧ (pendingWord 1 0 State.reset).busy = true ∧
    ([] : List (List BusAccess)).length = (pendingWord 1 0 State.reset).delay ∧
    (pendingWord 1 3 State.reset).resetIn = false ∧ (pendingWord 1 3 State.reset).busy = true ∧
    [[busRead 0x08], [], [busWrite 0x04 5, busWrite 0x0C 7]].length = (pendingWord 1 3 State.reset).delay := by
  decide

theorem witness_HeldReadSeesTheExecutedCommand :
    (pendingWord 4 2 { State.reset with bus := [busRead 0x10] }).resetIn = false ∧
    (pendingWord 4 2 { State.reset with bus := [busRead 0x10] }).bus = busRead 0x10 :: [] ∧
    isHeld (busRead 0x10) (pendingWord 4 2 { State.reset with bus := [busRead 0x10] }) = true := by decide

/-- No command pending, one pending, and a `push` whose CMD write is still to be accepted. -/
theorem witness_WaitLoopEnds :
    State.reset.resetIn = false ∧ (pendingWord 1 5 State.reset).resetIn = false ∧
    (State.reset.issueAll (push [1])).resetIn = false ∧ (State.reset.issueAll (push [1])).bus ≠ [] := by decide

/-- R98 behind a read that is held (R66): the loop ends after the pending MD4_INIT has executed, with the
STATUS of V-K2, 00000012H, and with both reads answered. -/
theorem test_wait_behind_held_read :
    (waitLoop 9 3 (pendingWord 1 2 { State.reset with bus := [busRead 0x10] })).map
      (fun r => (r.1, r.2.bus, r.2.replies.length)) = some (0x12, [], 2) := by decide

/-- The input asserted and released, with nothing on the bus, a held access and one that is not. -/
theorem witness_ResetInputResets :
    ({ started .md4 with resetIn := true } : State).resetIn = true ∧ (started .md4).resetIn = false ∧
    (started .md4).bus = [] ∧
    isHeld (busRead 0x10) (pendingWord 4 2 { State.reset with bus := [busRead 0x10], resetIn := true }) = true ∧
    isHeld (busRead 0x08) (pendingWord 4 2 { State.reset with bus := [busRead 0x08], resetIn := true }) = false
    := by decide

theorem witness_PhaseGuard :
    (∃ nb, Instr.absorb 1 = .absorb nb ∧ (Instr.absorb 1).WellFormed) ∧
    (∃ nb, Instr.absorb 4 = .absorb nb ∧ (Instr.absorb 4).WellFormed) ∧
    State.reset.phase = .idle ∧ ({ State.reset with phase := .done } : State).phase = .done ∧
    ({ State.reset with phase := .error } : State).phase = .error :=
  ⟨⟨1, rfl, by decide⟩, ⟨4, rfl, by decide⟩, rfl, rfl, rfl⟩

theorem witness_AbsorbInMd4Mode :
    (started .md4).phase = .active ∧ (started .md4).mode = .md4 ∧ (started .md4).ci.len.toNat + 1 ≤ lenMax ∧
    (counted .md4 (lenMax - 4) 0).phase = .active ∧ (counted .md4 (lenMax - 4) 0).mode = .md4 ∧
    (counted .md4 (lenMax - 4) 0).ci.len.toNat + 4 ≤ lenMax := by decide

theorem witness_AbsorbOverflowsInMd4Mode :
    ∀ s ∈ [counted .md4 (lenMax - 3) 0, counted .md4 lenMax 0],
      s.phase = .active ∧ s.mode = .md4 ∧ s.ci.len.toNat ≤ lenMax ∧ lenMax < s.ci.len.toNat + 4 := by decide

/-- First clause with one byte of room left over; second at its ends, and at the last segment. -/
theorem witness_AbsorbInEd2kMode :
    (∀ s ∈ [counted .ed2k 0 0, counted .ed2k (9728000 - 5) 0],
      s.phase = .active ∧ s.mode = .ed2k ∧ s.ci.len.toNat < 9728000 ∧ s.Bounded ∧
        4 < 9728000 - s.ci.len.toNat) ∧
    (∀ s ∈ [counted .ed2k (9728000 - 4) 0, counted .ed2k (9728000 - 1) (2 ^ 57 - 2)],
      s.phase = .active ∧ s.mode = .ed2k ∧ s.ci.len.toNat < 9728000 ∧ s.Bounded ∧
        9728000 - s.ci.len.toNat ≤ 4 ∧ s.segcnt.toNat < 2 ^ 57 - 1) := by decide

theorem witness_AbsorbOverflowsInEd2kMode :
    ∀ s ∈ [counted .ed2k (9728000 - 4) (2 ^ 57 - 1), counted .ed2k (9728000 - 1) (2 ^ 57 - 1)],
      s.phase = .active ∧ s.mode = .ed2k ∧ s.ci.len.toNat < 9728000 ∧ 9728000 ≤ s.ci.len.toNat + 4 ∧
        s.segcnt.toNat = 2 ^ 57 - 1 := by decide

theorem witness_FinalInMd4Mode : (started .md4).phase = .active ∧ (started .md4).mode = .md4 := by decide

/-- The four clauses: nothing in the segment, with one, none and the most segments; something in it, with
none, the most but one, and the most. -/
theorem witness_FinalInEd2kMode :
    (∀ s ∈ [counted .ed2k 0 1, counted .ed2k 0 0, counted .ed2k 0 (2 ^ 57 - 1)],
      s.phase = .active ∧ s.mode = .ed2k ∧ s.Bounded ∧ s.ci.len = 0) ∧
    (counted .ed2k 0 1).segcnt = 1 ∧ (counted .ed2k 0 0).segcnt ≠ 1 ∧
    (counted .ed2k 0 (2 ^ 57 - 1)).segcnt ≠ 1 ∧
    (∀ s ∈ [counted .ed2k 1 0, counted .ed2k (9728000 - 1) (2 ^ 57 - 2)],
      s.phase = .active ∧ s.mode = .ed2k ∧ s.Bounded ∧ s.ci.len ≠ 0 ∧ s.segcnt.toNat < 2 ^ 57 - 1) ∧
    (counted .ed2k 1 0).segcnt = 0 ∧ (counted .ed2k (9728000 - 1) (2 ^ 57 - 2)).segcnt ≠ 0 ∧
    (counted .ed2k 5 (2 ^ 57 - 1)).Bounded ∧ (counted .ed2k 5 (2 ^ 57 - 1)).ci.len ≠ 0 ∧
    (counted .ed2k 5 (2 ^ 57 - 1)).segcnt.toNat = 2 ^ 57 - 1 := by decide

theorem witness_AbsorbAndFinalFrame :
    (∃ nb, Instr.absorb 4 = .absorb nb ∧ (Instr.absorb 4).WellFormed) ∧
    (∃ t, exec (.absorb 4) (started .md4) = .next t) ∧ (∃ t, exec .final (started .ed2k) = .next t) ∧
    (started .md4).mode ≠ .ed2k := ⟨⟨4, rfl, by decide⟩, ⟨_, rfl⟩, ⟨_, rfl⟩, by decide⟩

/-- From ERROR: a step that leaves it, and one that does not. -/
theorem witness_OnlyInitClearResetLeaveError :
    ({ State.reset with phase := .error, errcode := .sequence } : State).phase = .error ∧
    afterWord 0x1 { State.reset with phase := .error, errcode := .sequence } State.phase = some .active ∧
    afterWord 0x5 { State.reset with phase := .error, errcode := .sequence } State.phase = some .idle ∧
    afterWord 0x4 { State.reset with phase := .error, errcode := .sequence } State.phase = some .error := by
  decide

/-- From DONE: a step that stays there, and one that leads to ERROR. -/
theorem witness_DigestIsImmutableInDone :
    (∃ t, step { started .md4 with phase := .done } = .next t ∧ t.phase = .done) ∧
    afterWord 0x4 { started .md4 with phase := .done } State.phase = some .error ∧
    decode (0x4 : Word) ≠ .ok .md4Init ∧ decode (0x4 : Word) ≠ .ok .ed2kInit ∧
    decode (0x4 : Word) ≠ .ok .clear := ⟨⟨_, rfl, rfl⟩, by decide, by decide, by decide, by decide⟩

theorem witness_StepKeepsLegalCombinations :
    State.reset.Legal ∧ (started .md4).Legal ∧ (counted .ed2k (9728000 - 1) (2 ^ 57 - 1)).Legal ∧
    (∃ t, step (pendingWord 0x3 0 (started .md4)) = .next t) ∧
    afterWord 0x43 (started .md4) State.phase = some .error :=
  ⟨by decide, by decide, by decide, ⟨_, rfl⟩, by decide⟩

theorem witness_StepKeepsCountersBounded :
    State.reset.Bounded ∧ (counted .md4 lenMax 0).Bounded ∧
    (counted .ed2k (9728000 - 1) (2 ^ 57 - 1)).Bounded ∧
    ∃ t, step (pendingWord 0x3 0 (counted .ed2k (9728000 - 1) (2 ^ 57 - 1))) = .next t :=
  ⟨by decide, by decide, by decide, _, rfl⟩

/-- R12 at the ends of the range of s and i, by values of section 2.2. -/
theorem witness_RotationAndSchedules :
    rotl 0x80000000 1 = 0x00000001 ∧ rotl 0x00000001 31 = 0x80000000 ∧ (31 + 1) % 32 = 0 ∧ (0 + 31) % 32 = 31 := by
  decide

theorem witness_RegisterRotation : ∀ n ∈ [0, 1, 2, 3, 15], ∃ j : Fin 4, j ≠ role n 0 := by decide

theorem witness_PaddingShape : 0 ≤ 2 ^ 61 - 1 ∧ lenMax ≤ 2 ^ 61 - 1 ∧ lenMax = 2 ^ 61 - 1 := by decide

/-- V-A8, V-A9: the last byte that is absorbed, and the first that is not. -/
theorem witness_Md4AbsorbEffect :
    (md4Absorb { md4Init with len := BitVec.ofNat 64 (lenMax - 1) } 0x11).isSome = true ∧
    md4Absorb { md4Init with len := BitVec.ofNat 64 lenMax } 0x11 = none := by decide +kernel

theorem witness_StreamedContextDeterminedByMessage :
    ([] : List Byte).length ≤ lenMax ∧ ∃ m : List Byte, m.length = lenMax ∧ m.length ≤ lenMax :=
  ⟨by decide, List.replicate lenMax 0, List.length_replicate, Nat.le_of_eq List.length_replicate⟩

theorem witness_StreamingMd4IsMd4Digest :
    ([] : List Byte).length ≤ lenMax ∧ ∃ m : List Byte, m.length = lenMax ∧ m.length ≤ lenMax :=
  ⟨by decide, List.replicate lenMax 0, List.length_replicate, Nat.le_of_eq List.length_replicate⟩

/-- A message of CHUNK_SIZE + 1 bytes has segments 0 and 1. -/
theorem witness_SegmentPartition :
    ∃ m : List Byte, m.length = 9728001 ∧ 0 + 1 < segmentCount m.length ∧ 1 < segmentCount m.length := by
  refine ⟨List.replicate 9728001 0, List.length_replicate, ?_, ?_⟩ <;> rw [List.length_replicate] <;> decide

theorem witness_Ed2kBoundaries :
    ([0] : List Byte).length = 1 ∧ (∃ m : List Byte, 0 < m.length ∧ m.length = 9728000) ∧
    ∃ m : List Byte, m.length = 9728001 := by
  refine ⟨rfl, ⟨List.replicate 9728000 0, ?_, List.length_replicate⟩,
    List.replicate 9728001 0, List.length_replicate⟩
  rw [List.length_replicate]; decide

theorem witness_SplitIndependence :
    GoodPieces [[1], [2, 3], [4, 5, 6, 7]] ∧ GoodPieces [[1, 2, 3, 4], [5], [6, 7]] ∧
    [[1], [2, 3], [4, 5, 6, 7]].flatten = ([[1, 2, 3, 4], [5], [6, 7]].flatten : List Byte) := by decide

theorem witness_Md4ProgramComputesDigest :
    State.reset.resetIn = false ∧ State.reset.bus = [] ∧ GoodPieces [[0x61, 0x62, 0x63]] ∧
    ([[0x61, 0x62, 0x63]] : List (List Byte)).flatten.length ≤ lenMax := by decide

theorem witness_Ed2kProgramComputesDigest :
    State.reset.resetIn = false ∧ State.reset.bus = [] ∧ GoodPieces [[0x61, 0x62, 0x63, 0x64], [0x65]] ∧
    ([[0x61, 0x62, 0x63, 0x64], [0x65]] : List (List Byte)).flatten.length ≤ (2 ^ 57 - 1) * 9728000 := by decide

/-- Two instances, side by side. -/
def twoEngines : Platform := ⟨[⟨0x80, State.reset⟩, ⟨0x100, State.reset⟩]⟩

/-- The first and the last address of each window, and the addresses next to them. -/
theorem witness_AddressDecoding :
    twoEngines.WellFormed ∧
    (∀ addr ∈ [0x80, 0xFF], (0 : Nat) < twoEngines.windows.length ∧ 0x80 ≤ addr ∧ addr < 0x80 + 128) ∧
    (∀ addr ∈ [0x100, 0x17F], (1 : Nat) < twoEngines.windows.length ∧ 0x100 ≤ addr ∧ addr < 0x100 + 128) ∧
    (∀ addr ∈ [0x7F, 0x180], ∀ w ∈ twoEngines.windows, ¬ (w.base ≤ addr ∧ addr < w.base + 128)) := by decide

theorem witness_InstancesAreIndependent : ∃ q, twoEngines.stepAt ⟨1, by decide⟩ = .next q := ⟨_, rfl⟩

end Sys2Proof.Tests
end

namespace Sys2Proof.Machine

/-! ### The rotation and the shift schedules (R12, R115) -/

/-- R12: rotl by s, 1 ≤ s ≤ 31, carries bit i to bit (i + s) mod 32. A bit that stays below 32 comes from
the left shift, one that wraps from the right shift. -/
theorem rotl_getLsbD {v : Word} {s i : Nat} (hs : 1 ≤ s) (hs' : s ≤ 31) (hi : i < 32) :
    (rotl v s).getLsbD ((i + s) % 32) = v.getLsbD i := by
  unfold rotl
  rw [BitVec.getLsbD_or, BitVec.getLsbD_shiftLeft, BitVec.getLsbD_ushiftRight]
  by_cases hw : i + s < 32
  · have hout : v.getLsbD (32 - s + (i + s)) = false := BitVec.getLsbD_of_ge _ _ (by omega)
    rw [Nat.mod_eq_of_lt hw, hout]
    simp [hw]
  · have hmod : (i + s) % 32 = i + s - 32 := by omega
    have hback : 32 - s + (i + s - 32) = i := by omega
    have hlow : i + s - 32 < s := by omega
    rw [hmod, hback]
    simp [hlow]

/-- The shift of a step is an entry of its schedule. -/
theorem shiftAt_mem (sched : Vector Nat 4) (n : Nat) : shiftAt sched n ∈ sched := Vector.getElem_mem _

/-- Settles O40: the rotation bit by bit; the shifts by the entries of the three schedules. -/
theorem rotationAndSchedules : Obligations.RotationAndSchedules := by
  have h1 : ∀ x ∈ s1, x ∈ [3, 5, 7, 9, 11, 13, 15, 19] := by decide
  have h2 : ∀ x ∈ s2, x ∈ [3, 5, 7, 9, 11, 13, 15, 19] := by decide
  have h3 : ∀ x ∈ s3, x ∈ [3, 5, 7, 9, 11, 13, 15, 19] := by decide
  refine ⟨fun v s i hs hs' hi => rotl_getLsbD hs hs' hi, fun n => ?_, by decide⟩
  exact ⟨h1 _ (shiftAt_mem s1 n), h2 _ (shiftAt_mem s2 n), h3 _ (shiftAt_mem s3 n)⟩

/-! ### The bounds of the counters, operation by operation (R12, R132, R170) -/

/-- R132: a byte that is absorbed leaves LEN within LEN_MAX. -/
theorem md4Absorb_len_le {c d : Context} {b : Byte} (hc : c.len.toNat ≤ lenMax)
    (h : md4Absorb c b = some d) : d.len.toNat ≤ lenMax := by
  obtain ⟨hne, -⟩ := md4Absorb_some h
  have hlt : c.len.toNat < lenMax :=
    Nat.lt_of_le_of_ne hc fun e => hne (BitVec.eq_of_toNat_eq (by simp [e, lenMax]))
  obtain ⟨e, he, hlen⟩ := md4Absorb_isSome b hlt
  rw [h] at he
  cases he
  omega

theorem State.Bounded.raiseError {s : State} (hb : s.Bounded) (code : ErrCode) :
    (raiseError code s).Bounded := by
  rw [raiseError_eq]; exact hb

theorem State.Bounded.andThen {f : Flow} {k : State → Flow} (hf : f.state.Bounded)
    (hk : ∀ t, f = .goOn t → t.Bounded → (k t).state.Bounded) : (f.andThen k).state.Bounded := by
  cases f with
  | goOn t => exact hk t rfl hf
  | ended t => exact hf

/-- The bounds speak of the computation alone. -/
theorem SameComputation.bounded {s t : State} (h : SameComputation s t) (hb : s.Bounded) : t.Bounded := by
  obtain ⟨hlen, hseg, hco⟩ := hb
  exact ⟨by rwa [h.ci], by rwa [h.segcnt], by rwa [h.mode, h.co, h.segcnt]⟩

theorem clearEngine_bounded (s : State) : (clearEngine s).Bounded :=
  ⟨Nat.zero_le _, Nat.zero_le _, nofun⟩

theorem resetStep_bounded (s : State) : (resetStep s).Bounded := by
  rw [resetStep_eq]; exact clearEngine_bounded s

theorem requireActive_bounded {s : State} (hb : s.Bounded) : (requireActive s).state.Bounded := by
  unfold requireActive
  split
  · exact hb
  · exact hb
  · exact hb.raiseError _
  · exact hb.raiseError _

theorem absorbInner_bounded (b : Byte) {s : State} (hb : s.Bounded) : (absorbInner b s).state.Bounded := by
  unfold absorbInner
  split
  · next c hc => exact ⟨md4Absorb_len_le hb.1 hc, hb.2⟩
  · exact hb.raiseError _

/-- R170: below 2^57 − 1 segments CO has room for the digest, whose 16 bytes go with the one segment
more; at 2^57 − 1 nothing is closed. -/
theorem segmentClose_bounded {s : State} (hb : s.Bounded) (hm : s.mode = .ed2k) :
    (segmentClose s).state.Bounded := by
  by_cases hfull : s.segcnt = BitVec.ofNat 64 segMax
  · rw [segmentClose_full hfull]; exact hb.raiseError _
  · have ⟨_, hseg, hco⟩ := hb
    have hlt : s.segcnt.toNat < segMax := Nat.lt_of_le_of_ne hseg fun e => hfull (segcnt_eq e)
    have hsucc : (s.segcnt + 1).toNat = s.segcnt.toNat + 1 :=
      BitVec.toNat_add_of_lt (by simp only [segMax] at hlt; simp; omega)
    obtain ⟨co, hsome, hlen⟩ := outer_room hb hm hlt (md4Finalize s.ci).h
    rw [segmentClose_some hfull hsome]
    have houter : co.len.toNat = 16 * (s.segcnt + 1).toNat := by rw [hlen, hco hm, hsucc, Nat.mul_succ]
    exact ⟨Nat.zero_le _, hsucc.trans_le hlt, fun _ => houter⟩

theorem absorbInner_goOn_mode {b : Byte} {s t : State} (h : absorbInner b s = .goOn t) :
    t.mode = s.mode := by
  have hk := (absorbInner_keeps b s).host.mode
  rwa [h] at hk

theorem ed2kAbsorb_bounded (b : Byte) {s : State} (hb : s.Bounded) (hm : s.mode = .ed2k) :
    (ed2kAbsorb b s).state.Bounded := by
  refine State.Bounded.andThen (absorbInner_bounded b hb) fun t ht hbt => ?_
  split
  · exact segmentClose_bounded hbt ((absorbInner_goOn_mode ht).trans hm)
  · exact hbt

theorem absorbByte_bounded (b : Byte) {s : State} (hb : s.Bounded) : (absorbByte b s).state.Bounded := by
  unfold absorbByte
  split
  · exact absorbInner_bounded b hb
  · next hm => exact ed2kAbsorb_bounded b hb hm
  · exact hb

theorem absorbBytes_bounded : ∀ (bs : List Byte) {s : State}, s.Bounded → (absorbBytes bs s).state.Bounded
  | [], _, hb => hb
  | b :: bs, _, hb => (absorbByte_bounded b hb).andThen fun _ _ => absorbBytes_bounded bs

/-- The selection finalizes CO at most, and that leaves its LEN (R134). -/
theorem ed2kSelect_bounded {s : State} (hb : s.Bounded) : (ed2kSelect s).Bounded := by
  unfold ed2kSelect
  split
  · exact hb
  · obtain ⟨hlen, hseg, hco⟩ := hb
    exact ⟨hlen, hseg, fun hm => (congrArg _ (md4Finalize_len s.co)).trans (hco hm)⟩

theorem finalizeByMode_bounded {s : State} (hb : s.Bounded) : (finalizeByMode s).state.Bounded := by
  unfold finalizeByMode
  split
  · exact ⟨(congrArg _ (md4Finalize_len s.ci)).trans_le hb.1, hb.2⟩
  · next hm =>
    refine State.Bounded.andThen ?_ fun t _ hbt => ed2kSelect_bounded hbt
    split
    · exact hb
    · exact segmentClose_bounded hb hm
  · exact hb

/-! ### The bounds at every step -/

theorem exec_bounded {i : Instr} {s t : State} (hb : s.Bounded) (h : exec i s = .next t) : t.Bounded := by
  cases i with
  | md4Init => cases h; exact ⟨Nat.zero_le _, Nat.zero_le _, nofun⟩
  | ed2kInit => cases h; exact ⟨Nat.zero_le _, Nat.zero_le _, fun _ => rfl⟩
  | absorb nb => cases h; exact (requireActive_bounded hb).andThen fun _ _ => absorbBytes_bounded _
  | final =>
    cases h
    have hmid := (requireActive_bounded hb).andThen fun _ _ => finalizeByMode_bounded
    exact hmid.andThen fun _ _ hbt => hbt
  | clear => cases h; exact clearEngine_bounded s

theorem executionStep_bounded {s t : State} (hb : s.Bounded) (h : executionStep s = .next t) :
    t.Bounded := by
  rcases executionStep_cases h with ⟨i, u, -, hu, rfl⟩ | ⟨e, -, rfl⟩
  · have hbu : u.Bounded := exec_bounded hb hu
    exact hbu
  · exact hb.raiseError .illegalCmd

/-- Settles O38: a step is reset, the execution step, or the bus, which does not touch the computation. -/
theorem stepKeepsCountersBounded : Obligations.StepKeepsCountersBounded := by
  intro s t hb h
  rcases step_cases h with ⟨-, rfl⟩ | ⟨-, -, -, hx⟩ | ⟨d, -, -, -, rfl⟩ | ⟨-, -, rfl⟩
  · exact resetStep_bounded s
  · exact executionStep_bounded hb hx
  · exact (busStep_computation { s with delay := d }).1.bounded hb
  · exact (busStep_computation s).1.bounded hb

end Sys2Proof.Machine

namespace Sys2Proof.Machine

/-! ### The register window (10_state.md section 5, R66 to R68) -/

/-- What a read at an aligned offset answers, and when it is held, by the register there (R66 to R68). -/
theorem busRead_at {off : BitVec 7} {r : Reg} (s : State) (hal : off.toNat % 4 = 0)
    (hreg : regAt off = r) :
    performAccess (busRead off) s = (s, .data (readReg r s)) ∧
    isHeld (busRead off) s = (s.busy && readHeldWhileBusy r) := by
  subst hreg
  exact ⟨performAccess_read s hal, isHeld_busRead s hal⟩

/-- The same of a write. -/
theorem busWrite_at {off : BitVec 7} {r : Reg} (v : Word) (s : State) (hal : off.toNat % 4 = 0)
    (hreg : regAt off = r) :
    performAccess (busWrite off v) s = (writeReg r v s, .written) ∧
    isHeld (busWrite off v) s = (s.busy && writeHeldWhileBusy r) := by
  subst hreg
  exact ⟨performAccess_write v s hal, isHeld_busWrite v s hal⟩

/-- Settles O5: both registers read a constant, ignore writes, and are not among R66's held reads. -/
theorem idAndChunkAreConstant : Obligations.IdAndChunkAreConstant := by
  intro s v
  obtain ⟨idRead, idHeld⟩ := busRead_at s rfl regAt_00
  obtain ⟨idWrite, -⟩ := busWrite_at v s rfl regAt_00
  obtain ⟨chunkRead, chunkHeld⟩ := busRead_at s rfl regAt_40
  obtain ⟨chunkWrite, -⟩ := busWrite_at v s rfl regAt_40
  exact ⟨idRead, idWrite, chunkRead, chunkWrite, idHeld.trans (Bool.and_false _),
    chunkHeld.trans (Bool.and_false _)⟩

/-- Settles O8: every offset from 0x44 on is the reserved register. -/
theorem reservedOffsets : Obligations.ReservedOffsets := by
  intro s v off hal hoff
  obtain ⟨hread, readHeld⟩ := busRead_at s hal (regAt_reserved hoff)
  obtain ⟨hwrite, writeHeld⟩ := busWrite_at v s hal (regAt_reserved hoff)
  exact ⟨hread, hwrite, readHeld.trans (Bool.and_false _), writeHeld.trans (Bool.and_false _)⟩

/-- R66: a result register is one whose reads BUSY alone holds. -/
theorem busRead_of_result {off : BitVec 7} {r : Reg} (s : State) (hal : off.toNat % 4 = 0)
    (hreg : regAt off = r) (hres : readHeldWhileBusy r = true) :
    performAccess (busRead off) s = (s, .data (readReg r s)) ∧ isHeld (busRead off) s = s.busy := by
  obtain ⟨hread, hheld⟩ := busRead_at s hal hreg
  exact ⟨hread, by rw [hheld, hres, Bool.and_true]⟩

/-- R44: DIGESTk sits at 0x10 + 4k. -/
theorem regAt_digest {off : BitVec 7} {k : Fin 4} (h : off.toNat = 0x10 + 4 * k.val) :
    regAt off = .digest k := by
  unfold regAt
  rw [h]
  match k with
  | 0 | 1 | 2 | 3 => rfl

/-- R45: STATEk sits at 0x20 + 4k. -/
theorem regAt_state {off : BitVec 7} {k : Fin 4} (h : off.toNat = 0x20 + 4 * k.val) :
    regAt off = .state k := by
  unfold regAt
  rw [h]
  match k with
  | 0 | 1 | 2 | 3 => rfl

/-- R16, R140: byte 4k + i of a serialized hash state is byte i of its word k. -/
theorem serialize_getElem? (h : HashWords) (k : Fin 4) {i : Nat} (hi : i < 4) :
    (serialize h)[4 * k.val + i]? = some (h[k].extractLsb' (8 * i) 8) := by
  match k, i, hi with
  | 0, 0, _ | 0, 1, _ | 0, 2, _ | 0, 3, _ | 1, 0, _ | 1, 1, _ | 1, 2, _ | 1, 3, _
  | 2, 0, _ | 2, 1, _ | 2, 2, _ | 2, 3, _ | 3, 0, _ | 3, 1, _ | 3, 2, _ | 3, 3, _ => rfl

/-- Settles O7: each offset's register is one of R66's held reads, and what it reads is `readReg`'s. -/
theorem resultRegistersRead : Obligations.ResultRegistersRead := by
  refine ⟨fun s k off h => ?_, fun s k off h => ?_, fun s => ?_⟩
  · obtain ⟨hread, hheld⟩ := busRead_of_result s (by omega) (regAt_digest h) rfl
    exact ⟨hread, hheld, fun i hi => serialize_getElem? s.dg k hi⟩
  · exact busRead_of_result s (by omega) (regAt_state h) rfl
  · obtain ⟨readLenLo, heldLenLo⟩ := busRead_of_result s (off := 0x30) rfl regAt_30 rfl
    obtain ⟨readLenHi, heldLenHi⟩ := busRead_of_result s (off := 0x34) rfl regAt_34 rfl
    obtain ⟨readSegLo, heldSegLo⟩ := busRead_of_result s (off := 0x38) rfl regAt_38 rfl
    obtain ⟨readSegHi, heldSegHi⟩ := busRead_of_result s (off := 0x3C) rfl regAt_3C rfl
    exact ⟨readLenLo, readLenHi, readSegLo, readSegHi, heldLenLo, heldLenHi, heldSegLo, heldSegHi⟩

/-! ### The fields of STATUS (R42) -/

/-- A code below 2^n at bit k is 0 in every field that lies apart from bits k to k + n − 1. -/
theorem extract_shiftLeft_apart {c : Word} {n k start len : Nat} (hc : c.toNat < 2 ^ n)
    (h : start + len ≤ k ∨ k + n ≤ start) : (c <<< k).extractLsb' start len = 0 := by
  apply BitVec.eq_of_getLsbD_eq
  intro i hi
  simp only [BitVec.getLsbD_extractLsb', BitVec.getLsbD_shiftLeft]
  rcases h with h | h
  · simp [show start + i < k by omega]
  · have hout : c.getLsbD (start + i - k) = false :=
      Nat.testBit_lt_two_pow (hc.trans_le (Nat.pow_le_pow_right (by decide) (by omega)))
    simp [hout]

/-- The field where a code is placed reads the code. -/
theorem extract_shiftLeft_self (c : Word) {k len : Nat} (h : k + len ≤ 32) :
    (c <<< k).extractLsb' k len = c.setWidth len := by
  apply BitVec.eq_of_getLsbD_eq
  intro i hi
  simp [hi, show k + i < 32 by omega, BitVec.getLsbD_eq_getElem (show i < 32 by omega)]

theorem busyBit_apart (b : Bool) {start len : Nat} (h : 1 ≤ start) :
    (busyBit b).extractLsb' start len = 0 := by
  have hb : (busyBit b).toNat < 2 ^ 1 := by cases b <;> decide
  simpa using extract_shiftLeft_apart (k := 0) hb (.inr (by omega))

theorem phase_apart (p : Phase) {start len : Nat} (h : start + len ≤ 1 ∨ 3 ≤ start) :
    (p.bits <<< 1).extractLsb' start len = 0 :=
  extract_shiftLeft_apart (n := 2) (by cases p <;> decide) h

theorem mode_apart (m : Mode) {start len : Nat} (h : start + len ≤ 4 ∨ 6 ≤ start) :
    (m.bits <<< 4).extractLsb' start len = 0 :=
  extract_shiftLeft_apart (n := 2) (by cases m <;> decide) h

theorem errcode_apart (e : ErrCode) {start len : Nat} (h : start + len ≤ 8 ∨ 12 ≤ start) :
    (e.bits <<< 8).extractLsb' start len = 0 :=
  extract_shiftLeft_apart (n := 4) (by cases e <;> decide) h

/-- A field of STATUS is the join of what the four codes show in it. -/
theorem statusWord_extract (s : State) (start len : Nat) :
    (statusWord s).extractLsb' start len =
      (busyBit s.busy).extractLsb' start len ||| (s.phase.bits <<< 1).extractLsb' start len |||
      (s.mode.bits <<< 4).extractLsb' start len ||| (s.errcode.bits <<< 8).extractLsb' start len := by
  simp only [statusWord, BitVec.extractLsb'_or]

theorem statusWord_phase (s : State) : (statusWord s).extractLsb' 1 2 = s.phase.bits.setWidth 2 := by
  simp [statusWord_extract, busyBit_apart, mode_apart, errcode_apart, extract_shiftLeft_self]

theorem statusWord_mode (s : State) : (statusWord s).extractLsb' 4 2 = s.mode.bits.setWidth 2 := by
  simp [statusWord_extract, busyBit_apart, phase_apart, errcode_apart, extract_shiftLeft_self]

theorem statusWord_errcode (s : State) :
    (statusWord s).extractLsb' 8 4 = s.errcode.bits.setWidth 4 := by
  simp [statusWord_extract, busyBit_apart, phase_apart, mode_apart, extract_shiftLeft_self]

theorem statusWord_busy (s : State) : (statusWord s).getLsbD 0 = s.busy := by
  have hbit : (busyBit s.busy).getLsbD 0 = s.busy := by cases s.busy <;> rfl
  simpa [statusWord] using hbit

/-- A field apart from all four codes is reserved: it reads 0 (U5). -/
theorem statusWord_reserved (s : State) {start len : Nat}
    (h : start = 3 ∧ len = 1 ∨ start = 6 ∧ len = 2 ∨ 12 ≤ start) :
    (statusWord s).extractLsb' start len = 0 := by
  rw [statusWord_extract, busyBit_apart _ (by omega), phase_apart _ (by omega),
    mode_apart _ (by omega), errcode_apart _ (by omega)]
  simp

/-- R34: of STATUS, acceptance changes BUSY alone. -/
theorem statusWord_acceptCommand (c : Word) (s : State) :
    statusWord (acceptCommand c s) = statusWord s ||| 1 := by
  have hbusy : busyBit true = busyBit s.busy ||| 1 := by cases s.busy <;> rfl
  simp only [statusWord, acceptCommand_busy, acceptCommand_phase, acceptCommand_mode,
    acceptCommand_errcode, hbusy]
  ac_rfl

theorem statusWord_reset : statusWord State.reset = 0 := rfl

/-- Settles O6: STATUS is `statusWord`, field by field. -/
theorem statusFields : Obligations.StatusFields := by
  intro s v
  obtain ⟨hread, hheld⟩ := busRead_at s rfl regAt_08
  obtain ⟨hwrite, -⟩ := busWrite_at v s rfl regAt_08
  refine ⟨statusWord s, hread, hheld.trans (Bool.and_false _), hwrite, statusWord_busy s, ?_,
    statusWord_reserved s (by decide), ?_, statusWord_reserved s (by decide), ?_,
    statusWord_reserved s (by decide),
    fun c => statusWord_acceptCommand c s, statusWord_reset⟩
  · rw [statusWord_phase]; cases s.phase <;> rfl
  · rw [statusWord_mode]; cases s.mode <;> rfl
  · rw [statusWord_errcode]; cases s.errcode <;> rfl

/-! ### The legal combinations, phase by phase (R35) -/

/-- R35, last line: in MD4 mode what only ED2K uses is empty. -/
abbrev State.OuterUnused (s : State) : Prop :=
  s.mode = .md4 → s.segcnt = 0 ∧ s.seg0 = Vector.replicate 4 0 ∧ s.co = Context.zero

theorem legal_outerUnused {s : State} (h : s.Legal) : s.OuterUnused := by
  obtain ⟨-, -, -, -, houter⟩ := h
  exact houter

/-- What is legal in ACTIVE. -/
theorem legal_iff_of_active {s : State} (hp : s.phase = .active) :
    s.Legal ↔ (s.mode = .md4 ∨ s.mode = .ed2k) ∧ s.errcode = .none ∧
      (s.mode = .ed2k → s.ci.len.toNat < chunkSize) ∧ s.OuterUnused := by
  simp [State.Legal, State.OuterUnused, hp, and_assoc]

/-- What is legal in ERROR. -/
theorem legal_iff_of_error {s : State} (hp : s.phase = .error) :
    s.Legal ↔ s.errcode ≠ .none ∧ s.OuterUnused := by
  have hcode : s.errcode ≠ .none ↔
      s.errcode = .illegalCmd ∨ s.errcode = .sequence ∨ s.errcode = .lengthOverflow := by
    cases s.errcode <;> simp
  simp [State.Legal, State.OuterUnused, hp, hcode]

/-- An ACTIVE ED2K state is legal while its segment is not full. -/
theorem legal_of_active_ed2k {s : State} (hp : s.phase = .active) (hm : s.mode = .ed2k)
    (he : s.errcode = .none) (hlen : s.ci.len.toNat < chunkSize) : s.Legal :=
  (legal_iff_of_active hp).2 ⟨.inr hm, he, fun _ => hlen, fun h => by simp [hm] at h⟩

/-- An ACTIVE MD4 state stays legal whatever becomes of CI and DG. -/
theorem legal_of_active_md4 {s : State} (hl : s.Legal) (hp : s.phase = .active) (hm : s.mode = .md4)
    (ci : Context) (dg : HashWords) : State.Legal { s with ci := ci, dg := dg } := by
  obtain ⟨-, he, -, houter⟩ := (legal_iff_of_active hp).1 hl
  exact (legal_iff_of_active (s := { s with ci := ci, dg := dg }) hp).2
    ⟨.inl hm, he, fun h => by simp [hm] at h, houter⟩

/-- FINAL's last statement: what is legal in ACTIVE is legal in DONE. -/
theorem legal_done_of_active {s : State} (hl : s.Legal) (hp : s.phase = .active) :
    State.Legal { s with phase := .done } := by
  obtain ⟨hm, he, -, houter⟩ := (legal_iff_of_active hp).1 hl
  exact ⟨nofun, fun _ => ⟨hm, he⟩, nofun, nofun, houter⟩

/-- Error entry needs of the state it finds R35's last line alone. -/
theorem raiseError_legal_of_ne {code : ErrCode} (hc : code ≠ .none) {s : State}
    (hp : s.phase ≠ .error) (houter : s.OuterUnused) : (raiseError code s).Legal := by
  rw [raiseError_of_ne hp]
  exact (legal_iff_of_error rfl).2 ⟨hc, houter⟩

theorem raiseError_legal {code : ErrCode} (hc : code ≠ .none) {s : State} (hl : s.Legal) :
    (raiseError code s).Legal := by
  by_cases hp : s.phase = .error
  · rwa [raiseError_of_error hp]
  · exact raiseError_legal_of_ne hc hp (legal_outerUnused hl)

theorem clearEngine_legal (s : State) : (clearEngine s).Legal := by
  simp [State.Legal]

theorem resetStep_legal (s : State) : (resetStep s).Legal := by
  rw [resetStep_eq]; exact clearEngine_legal s

theorem resetStep_phase (s : State) : (resetStep s).phase = .idle := by rw [resetStep_eq]; rfl

/-- The legal combinations speak of the computation alone. -/
theorem SameComputation.legal {s t : State} (h : SameComputation s t) (hl : s.Legal) : t.Legal := by
  obtain ⟨hphase, hmode, herr, hdg, hci, hco, hseg, hseg0⟩ := h
  simpa only [State.Legal, hphase, hmode, herr, hdg, hci, hco, hseg, hseg0] using hl

/-! ### The legal combinations between the statements of ABSORB and FINAL -/

/-- A command that goes on is in ACTIVE, and its state is legal whether it goes on or has ended. -/
def Flow.Legal : Flow → Prop
  | .goOn s => s.phase = .active ∧ s.Legal
  | .ended s => s.Legal

theorem Flow.Legal.state {f : Flow} (h : f.Legal) : f.state.Legal := by
  cases f with
  | goOn s => exact h.2
  | ended s => exact h

theorem Flow.Legal.andThen {f : Flow} {k : State → Flow} (hf : f.Legal)
    (hk : ∀ t, f = .goOn t → t.phase = .active → t.Legal → (k t).Legal) : (f.andThen k).Legal := by
  cases f with
  | goOn t => exact hk t rfl hf.1 hf.2
  | ended t => exact hf

theorem requireActive_legal {s : State} (hl : s.Legal) : (requireActive s).Legal := by
  unfold requireActive
  split
  · exact hl
  · next hp => exact ⟨hp, hl⟩
  · exact raiseError_legal (by decide) hl
  · exact raiseError_legal (by decide) hl

/-- R170, from a full segment too: a closing that goes on starts an empty segment. -/
theorem segmentClose_legal {s : State} (hp : s.phase = .active) (hm : s.mode = .ed2k)
    (he : s.errcode = .none) : (segmentClose s).Legal := by
  have raises : ∀ ci co, (raiseError .lengthOverflow { s with ci := ci, co := co }).Legal :=
    fun _ _ => raiseError_legal_of_ne (by decide) (by simp [hp]) fun h => by simp [hm] at h
  rcases segmentClose_cases s with ⟨-, h⟩ | ⟨co, h⟩ | ⟨-, co, -, h⟩ <;> rw [h]
  · exact raises s.ci s.co
  · exact raises _ co
  · exact ⟨hp, legal_of_active_ed2k hp hm he (by simp [chunkSize])⟩

theorem absorbInner_legal_md4 (b : Byte) {s : State} (hp : s.phase = .active) (hl : s.Legal)
    (hm : s.mode = .md4) : (absorbInner b s).Legal := by
  unfold absorbInner
  split
  · exact ⟨hp, legal_of_active_md4 hl hp hm _ s.dg⟩
  · exact raiseError_legal (by decide) hl

/-- R171: a byte either fills the segment, which is closed, or leaves it short of CHUNK_SIZE. -/
theorem ed2kAbsorb_legal (b : Byte) {s : State} (hp : s.phase = .active) (hl : s.Legal)
    (hm : s.mode = .ed2k) : (ed2kAbsorb b s).Legal := by
  obtain ⟨-, he, hlen, -⟩ := (legal_iff_of_active hp).1 hl
  obtain ⟨c, hc, hclen⟩ := md4Absorb_isSome (c := s.ci) b ((hlen hm).trans (by decide))
  rw [ed2kAbsorb, absorbInner_some hc, andThen_goOn]
  split
  · exact segmentClose_legal hp hm he
  · next hne =>
    have hne' : c.len.toNat ≠ chunkSize := fun e => hne (BitVec.eq_of_toNat_eq (by simp [e, chunkSize]))
    have hlt : c.len.toNat < chunkSize := Nat.lt_of_le_of_ne (hclen.trans_le (hlen hm)) hne'
    exact ⟨hp, legal_of_active_ed2k hp hm he hlt⟩

theorem absorbByte_legal (b : Byte) {s : State} (hp : s.phase = .active) (hl : s.Legal) :
    (absorbByte b s).Legal := by
  unfold absorbByte
  split
  · next hm => exact absorbInner_legal_md4 b hp hl hm
  · next hm => exact ed2kAbsorb_legal b hp hl hm
  · exact ⟨hp, hl⟩

theorem absorbBytes_legal : ∀ (bs : List Byte) {s : State}, s.phase = .active → s.Legal →
    (absorbBytes bs s).Legal
  | [], _, hp, hl => ⟨hp, hl⟩
  | b :: bs, _, hp, hl => (absorbByte_legal b hp hl).andThen fun _ _ => absorbBytes_legal bs

/-- The selection writes DG and CO, of which R35 says nothing in ED2K mode. -/
theorem ed2kSelect_legal {s : State} (hp : s.phase = .active) (hl : s.Legal) (hm : s.mode = .ed2k) :
    (ed2kSelect s).phase = .active ∧ (ed2kSelect s).Legal := by
  obtain ⟨-, he, hlen, -⟩ := (legal_iff_of_active hp).1 hl
  unfold ed2kSelect
  split <;> exact ⟨hp, legal_of_active_ed2k hp hm he (hlen hm)⟩

theorem segmentClose_goOn_mode {s t : State} (hm : s.mode = .ed2k) (h : segmentClose s = .goOn t) :
    t.mode = .ed2k := by
  have hk := (segmentClose_keeps hm).host.mode
  rw [h] at hk
  exact hk.trans hm

theorem ed2kFinalize_legal {s : State} (hp : s.phase = .active) (hl : s.Legal) (hm : s.mode = .ed2k) :
    (ed2kFinalize s).Legal := by
  obtain ⟨-, he, -, -⟩ := (legal_iff_of_active hp).1 hl
  unfold ed2kFinalize
  split
  · exact ed2kSelect_legal hp hl hm
  · exact (segmentClose_legal hp hm he).andThen fun t ht hpt hlt =>
      ed2kSelect_legal hpt hlt (segmentClose_goOn_mode hm ht)

theorem finalizeByMode_legal {s : State} (hp : s.phase = .active) (hl : s.Legal) :
    (finalizeByMode s).Legal := by
  unfold finalizeByMode
  split
  · next hm => exact ⟨hp, legal_of_active_md4 hl hp hm _ _⟩
  · next hm => exact ed2kFinalize_legal hp hl hm
  · exact ⟨hp, hl⟩

/-! ### The legal combinations at every step -/

theorem SameHost.andThen {s : State} {f : Flow} {k : State → Flow} (hf : SameHost s f.state)
    (hk : ∀ t, SameHost t (k t).state) : SameHost s (f.andThen k).state := by
  cases f with
  | goOn t => exact hf.trans (hk t)
  | ended t => exact hf

theorem execFinal_legal {s t : State} (hl : s.Legal) (h : execFinal s = .next t) : t.Legal := by
  cases h
  have hmid := (requireActive_legal hl).andThen fun _ _ => finalizeByMode_legal
  cases hf : (requireActive s).andThen finalizeByMode with
  | goOn u =>
    rw [hf] at hmid
    obtain ⟨hp, hlu⟩ := hmid
    exact legal_done_of_active hlu hp
  | ended u => rw [hf] at hmid; exact hmid

theorem exec_legal {i : Instr} {s t : State} (hl : s.Legal) (h : exec i s = .next t) : t.Legal := by
  cases i with
  | md4Init => cases h; exact (legal_iff_of_active rfl).2 ⟨.inl rfl, rfl, nofun, fun _ => ⟨rfl, rfl, rfl⟩⟩
  | ed2kInit => cases h; exact legal_of_active_ed2k rfl rfl rfl (by simp [chunkSize])
  | absorb nb => cases h; exact ((requireActive_legal hl).andThen fun _ _ => absorbBytes_legal _).state
  | final => exact execFinal_legal hl h
  | clear => cases h; exact clearEngine_legal s

/-- R236: a command that ends in ERROR has left MODE; the three that write it do not end there. -/
theorem exec_error_mode {i : Instr} {s t : State} (h : exec i s = .next t) (hp : t.phase = .error) :
    t.mode = s.mode := by
  cases i with
  | md4Init => cases h; cases hp
  | ed2kInit => cases h; cases hp
  | absorb nb =>
    cases h
    exact ((requireActive_keeps s).host.andThen fun t => (absorbBytes_keeps _ t).host).mode
  | final =>
    cases h
    have hmid := (requireActive_keeps s).host.andThen fun t => (finalizeByMode_keeps t).1
    exact (hmid.andThen fun t => ⟨rfl, rfl, rfl, rfl, rfl, rfl, rfl, rfl, rfl⟩).mode
  | clear => cases h; cases hp

theorem executionStep_legal {s t : State} (hl : s.Legal) (h : executionStep s = .next t) :
    t.Legal ∧ (t.phase = .error → t.mode = s.mode) := by
  rcases executionStep_cases h with ⟨i, u, -, hu, rfl⟩ | ⟨e, -, rfl⟩
  · have hdone : u.Legal ∧ (u.phase = .error → u.mode = s.mode) :=
      ⟨exec_legal hl hu, exec_error_mode hu⟩
    exact hdone
  · exact ⟨raiseError_legal (code := .illegalCmd) (by decide) hl,
      fun _ => (SameHost.raiseError .illegalCmd s).mode⟩

/-- Settles O37: a step is reset, the execution step, or the bus, which does not touch the computation. -/
theorem stepKeepsLegalCombinations : Obligations.StepKeepsLegalCombinations := by
  intro s t hl h
  rcases step_cases h with ⟨-, rfl⟩ | ⟨-, -, -, hx⟩ | ⟨d, -, -, -, rfl⟩ | ⟨-, -, rfl⟩
  · exact ⟨resetStep_legal s, fun hp => by simp [resetStep_phase] at hp⟩
  · exact executionStep_legal hl hx
  · have hsame := (busStep_computation { s with delay := d }).1
    exact ⟨hsame.legal hl, fun _ => hsame.mode⟩
  · have hsame := (busStep_computation s).1
    exact ⟨hsame.legal hl, fun _ => hsame.mode⟩

/-! ### Reset and CLEAR (R50, R51) -/

/-- Settles O21: the values are those of `State.reset`, with a vector of zeros written out. -/
theorem resetValues : Obligations.ResetValues := by
  have hzero : Vector.replicate 4 (0 : Word) = #v[0, 0, 0, 0] := rfl
  have hctx : Context.zero = ⟨#v[0, 0, 0, 0], Vector.replicate 64 0, 0⟩ := rfl
  exact ⟨reset_phase, reset_mode, reset_errcode, reset_busy, reset_pend, reset_din,
    reset_dg.trans hzero, reset_ci.trans hctx, reset_co.trans hctx, reset_segcnt,
    reset_seg0.trans hzero⟩

/-- R51: no register shows what the host side holds, so a cleared engine reads as a reset one. -/
theorem readReg_clearEngine (r : Reg) (s : State) :
    readReg r (clearEngine s) = readReg r State.reset := by
  cases r <;> rfl

/-- Settles O25: CLEAR is `clearEngine`. -/
theorem clearIsReset : Obligations.ClearIsReset := by
  refine ⟨rfl, fun s => ⟨clearEngine s, rfl, rfl, fun off => readReg_clearEngine _ s, ?_⟩⟩
  calc statusWord (clearEngine s) = statusWord State.reset := readReg_clearEngine .status s
    _ = 0 := statusWord_reset

/-- A reset state is a cleared one. -/
theorem clearEngine_reset : clearEngine State.reset = State.reset := rfl

/-- Settles O36: reset is what CLEAR leaves, and that is legal and within the bounds. -/
theorem resetIsSafe : Obligations.ResetIsSafe := by
  have hsafe : (clearEngine State.reset).Safe := ⟨clearEngine_legal _, clearEngine_bounded _⟩
  rwa [clearEngine_reset] at hsafe

end Sys2Proof.Machine

namespace Sys2Proof.Machine

/-! ### Undefined accesses (R63) -/

theorem isDefined_eq_false {a : BusAccess} (h : a.size ≠ .bits32 ∨ a.off.toNat % 4 ≠ 0) :
    a.isDefined = false := by
  rw [Bool.eq_false_iff, ne_eq, isDefined_iff, not_and_or]
  exact h

/-- R66 holds defined accesses only (log 6). -/
theorem isHeld_undefined {a : BusAccess} (s : State) (h : a.isDefined = false) : isHeld a s = false := by
  simp [isHeld, h]

theorem isDefined_of_isHeld {a : BusAccess} {s : State} (h : isHeld a s = true) : a.isDefined = true := by
  cases hd : a.isDefined with
  | true => rfl
  | false => simp [isHeld_undefined s hd] at h

/-- Settles O9: an undefined access is not held, and performing it touches no state. -/
theorem undefinedAccessGetsBusError : Obligations.UndefinedAccessGetsBusError := by
  intro s a rest hund hbus
  have hdef := isDefined_eq_false hund
  rw [busStep_done hbus (isHeld_undefined s hdef), performAccess_undefined _ hdef]
  cases a.op <;> rfl

/-! ### The registers with a side effect or a stall (R66 to R68) -/

/-- R41: CMD stands at 0x04 alone. -/
theorem regAt_eq_cmd_iff : ∀ off : BitVec 7, regAt off = .cmd ↔ off = 0x04 := by decide

/-- R43: DIN stands at 0x0C alone. -/
theorem regAt_eq_din_iff : ∀ off : BitVec 7, regAt off = .din ↔ off = 0x0C := by decide

theorem writeHeldWhileBusy_iff (r : Reg) : writeHeldWhileBusy r = true ↔ r = .cmd := by
  cases r <;> simp [writeHeldWhileBusy]

/-- R66: the registers whose reads are held stand at 0x10 to 0x3C. -/
theorem readHeldWhileBusy_regAt_iff : ∀ off : BitVec 7, off.toNat % 4 = 0 →
    (readHeldWhileBusy (regAt off) = true ↔ 0x10 ≤ off.toNat ∧ off.toNat ≤ 0x3C) := by decide

/-- R66 by operation and offset. -/
theorem heldWhileBusy_regAt_iff {off : BitVec 7} (op : BusOp) (hal : off.toNat % 4 = 0) :
    heldWhileBusy (regAt off) op = true ↔
      (off = 0x04 ∧ ∃ v, op = .write v) ∨ (0x10 ≤ off.toNat ∧ off.toNat ≤ 0x3C ∧ op = .read) := by
  cases op with
  | read => simpa [heldWhileBusy] using readHeldWhileBusy_regAt_iff off hal
  | write v => simpa [heldWhileBusy, writeHeldWhileBusy_iff] using regAt_eq_cmd_iff off

/-- Performing an access issues none. -/
@[simp] theorem performAccess_bus (a : BusAccess) (s : State) : (performAccess a s).1.bus = s.bus := by
  rcases performAccess_cases a s with e | ⟨v, -, -, e⟩ | ⟨v, -, -, e⟩ <;> simp [e]

/-- Settles O10: R66 by the register at the offset; then the bus step by whether the access is held. -/
theorem heldAccesses : Obligations.HeldAccesses := by
  intro s a rest hbus hsize hal
  have hdef : a.isDefined = true := (isDefined_iff a).2 ⟨hsize, hal⟩
  refine ⟨?_, busStep_held hbus, fun hfree => ?_⟩
  · rw [isHeld, hdef, Bool.and_true, Bool.and_eq_true, heldWhileBusy_regAt_iff a.op hal]
  · have hdone := busStep_done hbus hfree
    exact ⟨hdone, by rw [hdone]; exact performAccess_bus a _⟩

/-- Settles O11: the register at the offset says what a read answers and a write does. -/
theorem accessEffects : Obligations.AccessEffects := by
  intro s v off hal
  refine ⟨performAccess_read s hal, ?din, ?cmd, ?other⟩
  case din =>
    rintro rfl
    exact ⟨performAccess_read s hal, performAccess_write v s hal, performAccess_read _ hal⟩
  case cmd =>
    rintro rfl
    exact ⟨_, _, performAccess_write v s hal, performAccess_read s hal⟩
  case other =>
    intro hdin hcmd
    rw [performAccess_write v s hal]
    rcases writeReg_cases (regAt off) v s with ⟨h, -⟩ | ⟨h, -⟩ | ⟨-, -, h⟩
    · exact absurd ((regAt_eq_cmd_iff off).1 h) hcmd
    · exact absurd ((regAt_eq_din_iff off).1 h) hdin
    · rw [h]

/-! ### What the bus step does with an aligned access that is not held (R68, R70) -/

/-- No register shows what is on the bus. -/
theorem readReg_bus (r : Reg) (s : State) (bus : List BusAccess) :
    readReg r { s with bus := bus } = readReg r s := by
  cases r <;> rfl

theorem busStep_read {s : State} {off : BitVec 7} {rest : List BusAccess}
    (hbus : s.bus = busRead off :: rest) (hal : off.toNat % 4 = 0) (hfree : isHeld (busRead off) s = false) :
    busStep s = { s with
      bus := rest
      replies := s.replies ++ [.data (readReg (regAt off) s)] } := by
  rw [busStep_done hbus hfree, performAccess_read _ hal, readReg_bus]

theorem busStep_write {s : State} {off : BitVec 7} {v : Word} {rest : List BusAccess}
    (hbus : s.bus = busWrite off v :: rest) (hal : off.toNat % 4 = 0)
    (hfree : isHeld (busWrite off v) s = false) :
    busStep s = { writeReg (regAt off) v { s with bus := rest } with
      replies := s.replies ++ [.written] } := by
  rw [busStep_done hbus hfree, performAccess_write _ _ hal]

/-- Settles O12: the CMD write captures DIN in PEND (R34); the DIN write, which is never held, is later. -/
theorem laterDinWriteLeavesPending : Obligations.LaterDinWriteLeavesPending := by
  intro s c v rest hb hbus
  have hcmd := busStep_write hbus rfl (isHeld_of_not_busy _ hb)
  have hbus' : (busStep s).bus = busWrite 0x0C v :: rest := by rw [hcmd]; rfl
  obtain ⟨-, hheld⟩ := busWrite_at v (busStep s) rfl regAt_0C
  have hdin := busStep_write hbus' rfl (hheld.trans (Bool.and_false _))
  have hpend : (busStep s).pend = ⟨c, s.din⟩ := by rw [hcmd]; rfl
  refine ⟨hpend, by rw [hcmd]; rfl, ?_, by rw [hdin]; rfl, by rw [hdin]; rfl⟩
  rw [hdin]
  exact hpend

/-- Settles O15: `step` where no command is due. -/
theorem stepAnswersTheBus : Obligations.StepAnswersTheBus :=
  fun _ hr => ⟨step_free hr, fun _ => step_waits hr⟩

/-! ### A held read (R66, R272) -/

theorem busy_of_isHeld {a : BusAccess} {s : State} (h : isHeld a s = true) : s.busy = true := by
  cases hb : s.busy with
  | true => rfl
  | false => simp [isHeld_of_not_busy a hb] at h

/-- While the oldest access is held, the latency passes and nothing else happens. -/
theorem runSteps_latency_of_held {a : BusAccess} {rest : List BusAccess} :
    ∀ {n : Nat} {s : State}, s.resetIn = false → s.bus = a :: rest → isHeld a s = true → s.delay = n →
      runSteps n s = .next { s with delay := 0 }
  | 0, s, _, _, _, hd => by rw [runSteps_zero, ← hd]
  | n + 1, s, hr, hbus, hheld, hd => by
    have hstep : step s = .next { s with delay := n } := by
      rw [step_waits hr (busy_of_isHeld hheld) hd, busStep_held (s := { s with delay := n }) hbus hheld]
    rw [runSteps_succ hstep, runSteps_latency_of_held (s := { s with delay := n }) hr hbus hheld rfl]

/-- Settles O19: the latency passes, the execution step ends BUSY and so the hold, the bus answers. -/
theorem heldReadSeesTheExecutedCommand : Obligations.HeldReadSeesTheExecutedCommand := by
  intro s off rest hr hbus hheld
  have hlatency := runSteps_latency_of_held hr hbus hheld rfl
  obtain ⟨u, hexec⟩ := executionStep_answers { s with delay := 0 }
  have hdue : step { s with delay := 0 } = .next u :=
    (step_due (s := { s with delay := 0 }) hr (busy_of_isHeld hheld) rfl).trans hexec
  obtain ⟨hfree, hreset, hubus, hreplies, -⟩ := executionStep_hostSide hexec
  have hal : off.toNat % 4 = 0 := ((isDefined_iff _).1 (isDefined_of_isHeld hheld)).2
  have hread := busStep_read (hubus.trans hbus) hal (isHeld_of_not_busy _ hfree)
  have hanswer : step u = .next (busStep u) := step_free (hreset.trans hr) hfree
  refine ⟨u, busStep u, ?_, hubus, hfree, ?_, by rw [hread], by rw [hread, hreplies]⟩
  · rw [runSteps_add hlatency, runSteps_succ hdue, runSteps_zero]
  · rw [runSteps_add hlatency, runSteps_succ hdue, runSteps_succ hanswer, runSteps_zero]

/-! ### Address decoding (R60, R62) -/

theorem contains_iff (w : Window) (addr : Nat) :
    w.contains addr = true ↔ w.base ≤ addr ∧ addr < w.base + 128 := by
  simp [Window.contains]

theorem offset_toNat {w : Window} {addr : Nat} (h : w.contains addr = true) :
    (w.offset addr).toNat = addr - w.base := by
  obtain ⟨hlo, hhi⟩ := (contains_iff w addr).1 h
  rw [Window.offset, BitVec.toNat_ofNat, Nat.mod_eq_of_lt (by omega)]

/-- R10, R60: windows of 128 bytes at distinct multiples of 128 do not meet. -/
theorem window_unique {p : Platform} (hp : p.WellFormed) {addr i j : Nat} {hi : i < p.windows.length}
    {hj : j < p.windows.length} (hci : p.windows[i].contains addr = true)
    (hcj : p.windows[j].contains addr = true) : i = j := by
  obtain ⟨-, haligned, hdistinct⟩ := hp
  have hai := haligned _ (List.getElem_mem hi)
  have haj := haligned _ (List.getElem_mem hj)
  rw [contains_iff] at hci hcj
  have hbase : p.windows[i].base = p.windows[j].base := by omega
  have hi' : i < (p.windows.map Window.base).length := by simpa using hi
  have hj' : j < (p.windows.map Window.base).length := by simpa using hj
  exact (hdistinct.getElem_inj_iff (hi := hi') (hj := hj')).1 (by simpa using hbase)

/-- The window that holds an address is the one decoding finds. -/
theorem findIdx?_contains {p : Platform} (hp : p.WellFormed) {addr k : Nat} {hk : k < p.windows.length}
    (hck : p.windows[k].contains addr = true) : p.windows.findIdx? (·.contains addr) = some k := by
  rw [List.findIdx?_eq_some_iff_getElem]
  refine ⟨hk, hck, fun j hj hcj => ?_⟩
  exact absurd (window_unique hp hcj hck) (Nat.ne_of_lt hj)

/-- R60: an access at an address of window `k` is issued there, at its offset. -/
theorem access_inside {p : Platform} (hp : p.WellFormed) {addr k : Nat} (size : AccessSize) (op : BusOp)
    {hk : k < p.windows.length} (hck : p.windows[k].contains addr = true) :
    p.access addr size op = .next ⟨p.windows.set k { p.windows[k] with
      engine := p.windows[k].engine.issue ⟨p.windows[k].offset addr, size, op⟩ }⟩ := by
  simp only [Platform.access, findIdx?_contains hp hck]
  rw [List.modify_eq_set_get _ hk]
  rfl

theorem access_outside {p : Platform} {addr : Nat} (size : AccessSize) (op : BusOp)
    (h : ∀ w ∈ p.windows, w.contains addr = false) : p.access addr size op = .refused .outsideWindow := by
  simp only [Platform.access, List.findIdx?_eq_none_iff.2 h]

/-- Settles O54: at most one window holds an address, so decoding finds it. -/
theorem addressDecoding : Obligations.AddressDecoding := by
  intro p addr size op hp
  refine ⟨fun k hk hlo hhi => ?_, fun hout => ?_⟩
  · have hck : p.windows[k].contains addr = true := (contains_iff _ _).2 ⟨hlo, hhi⟩
    exact ⟨_, _, access_inside hp size op hck, offset_toNat hck, rfl⟩
  · refine access_outside size op fun w hw => ?_
    rw [Bool.eq_false_iff, ne_eq, contains_iff]
    exact hout w hw

/-! ### The bytes captured in PEND and DIN enter by ABSORB only (R195) -/

/-- The state with PEND and DIN replaced. -/
def State.withInput (p : Pending) (din : Word) (s : State) : State := { s with pend := p, din := din }

/-- A flow with its state changed, whichever way it ends. -/
def Flow.map (g : State → State) : Flow → Flow
  | .goOn s => .goOn (g s)
  | .ended s => .ended (g s)

@[simp] theorem Flow.map_state (g : State → State) (f : Flow) : (f.map g).state = g f.state := by
  cases f <;> rfl

/-- What every statement commutes with, their sequence commutes with. -/
theorem Flow.map_andThen {g : State → State} {k : State → Flow} (f : Flow)
    (hk : ∀ t, k (g t) = (k t).map g) : (f.map g).andThen k = (f.andThen k).map g := by
  cases f with
  | goOn t => exact hk t
  | ended t => rfl

section
variable (p : Pending) (din : Word)

theorem raiseError_withInput (code : ErrCode) (s : State) :
    raiseError code (s.withInput p din) = (raiseError code s).withInput p din := by
  rw [raiseError_eq, raiseError_eq]; rfl

theorem raise_withInput (code : ErrCode) (s : State) :
    raise code (s.withInput p din) = (raise code s).map (State.withInput p din) :=
  congrArg Flow.ended (raiseError_withInput p din code s)

theorem requireActive_withInput (s : State) :
    requireActive (s.withInput p din) = (requireActive s).map (State.withInput p din) := by
  cases h : s.phase with
  | active => rw [requireActive_active h, requireActive_active (s := s.withInput p din) h]; rfl
  | error => rw [requireActive_error h, requireActive_error (s := s.withInput p din) h]; rfl
  | idle => rw [requireActive_raises (.inl h), requireActive_raises (s := s.withInput p din) (.inl h)]; rfl
  | done => rw [requireActive_raises (.inr h), requireActive_raises (s := s.withInput p din) (.inr h)]; rfl

theorem absorbOuter_withInput (b : Byte) (s : State) :
    absorbOuter b (s.withInput p din) = (absorbOuter b s).map (State.withInput p din) := by
  unfold absorbOuter
  have hco : (s.withInput p din).co = s.co := rfl
  rw [hco]
  cases md4Absorb s.co b with
  | some c => rfl
  | none => exact raise_withInput p din .lengthOverflow s

theorem absorbAllOuter_withInput : ∀ (bs : List Byte) (s : State),
    absorbAllOuter bs (s.withInput p din) = (absorbAllOuter bs s).map (State.withInput p din)
  | [], _ => rfl
  | b :: bs, s => by
    rw [absorbAllOuter, absorbOuter_withInput, Flow.map_andThen _ (absorbAllOuter_withInput bs)]
    rfl

theorem segmentClose_withInput (s : State) :
    segmentClose (s.withInput p din) = (segmentClose s).map (State.withInput p din) := by
  have hsame : (s.withInput p din).segcnt = s.segcnt := rfl
  unfold segmentClose
  rw [hsame]
  split
  · exact raise_withInput p din .lengthOverflow s
  · let ci := md4Finalize s.ci
    have habsorb := absorbAllOuter_withInput p din (serialize ci.h) { s with ci := ci }
    exact (congrArg (Flow.andThen · _) habsorb).trans (Flow.map_andThen _ fun _ => rfl)

theorem ed2kSelect_withInput (s : State) :
    ed2kSelect (s.withInput p din) = (ed2kSelect s).withInput p din := by
  have hsame : (s.withInput p din).segcnt = s.segcnt := rfl
  unfold ed2kSelect
  rw [hsame]
  split <;> rfl

theorem ed2kFinalize_withInput (s : State) :
    ed2kFinalize (s.withInput p din) = (ed2kFinalize s).map (State.withInput p din) := by
  have hsame : (s.withInput p din).ci = s.ci := rfl
  have hselect : ∀ t : State, Flow.goOn (ed2kSelect (t.withInput p din)) =
      (Flow.goOn (ed2kSelect t)).map (State.withInput p din) :=
    fun t => congrArg Flow.goOn (ed2kSelect_withInput p din t)
  unfold ed2kFinalize
  rw [hsame]
  split
  · exact hselect s
  · rw [segmentClose_withInput, Flow.map_andThen _ hselect]

theorem finalizeByMode_withInput (s : State) :
    finalizeByMode (s.withInput p din) = (finalizeByMode s).map (State.withInput p din) := by
  have hsame : (s.withInput p din).mode = s.mode := rfl
  unfold finalizeByMode
  rw [hsame]
  split
  · rfl
  · exact ed2kFinalize_withInput p din s
  · rfl

/-- R196: FINAL carries other input along unread. -/
theorem execFinal_withInput (s : State) :
    ∃ t, execFinal s = .next t ∧ execFinal (s.withInput p din) = .next (t.withInput p din) := by
  refine ⟨_, rfl, congrArg Host.Outcome.next ?_⟩
  rw [requireActive_withInput, Flow.map_andThen _ (finalizeByMode_withInput p din),
    Flow.map_andThen _ fun _ => rfl, Flow.map_state]

/-- R195: a command that is no ABSORB takes nothing from PEND nor from DIN. CLEAR sets both, the others
carry them along. -/
theorem exec_withInput {i : Instr} (hi : ∀ nb, i ≠ .absorb nb) (s : State) :
    ∃ t u, exec i s = .next t ∧ exec i (s.withInput p din) = .next u ∧
      u.withInput t.pend t.din = t := by
  cases i with
  | md4Init => exact ⟨_, _, rfl, rfl, rfl⟩
  | ed2kInit => exact ⟨_, _, rfl, rfl, rfl⟩
  | absorb nb => exact absurd rfl (hi nb)
  | final =>
    obtain ⟨t, ht, hu⟩ := execFinal_withInput p din s
    exact ⟨t, _, ht, hu, rfl⟩
  | clear => exact ⟨_, _, rfl, rfl, rfl⟩

end

/-- R190: the execution step of a legal word is its command, and then BUSY is cleared. -/
theorem executionStep_ok {i : Instr} {s t : State} (hdec : decode s.pend.cmd = .ok i)
    (hexec : exec i s = .next t) : executionStep s = .next { t with busy := false } := by
  simp only [executionStep, executePending, hdec, hexec, clearBusy]

/-- R231: that of an illegal word is error entry. -/
theorem executionStep_error {e : IllegalWord} {s : State} (hdec : decode s.pend.cmd = .error e) :
    executionStep s = .next { raiseError .illegalCmd s with busy := false } := by
  simp only [executionStep, executePending, hdec, clearBusy]

/-- R195 at the execution step, for input that holds the same command word. -/
theorem executionStep_withInput {s : State} (hword : ∀ nb, decode s.pend.cmd ≠ .ok (.absorb nb))
    {p : Pending} (hp : p.cmd = s.pend.cmd) (din : Word) :
    ∃ t u, executionStep s = .next t ∧ executionStep (s.withInput p din) = .next u ∧
      u.withInput t.pend t.din = t := by
  have hcmd : (s.withInput p din).pend.cmd = s.pend.cmd := hp
  cases hdec : decode s.pend.cmd with
  | ok i =>
    have hi : ∀ nb, i ≠ .absorb nb := by
      rintro nb rfl
      exact hword nb hdec
    obtain ⟨t, u, ht, hu, heq⟩ := exec_withInput p din hi s
    exact ⟨_, _, executionStep_ok hdec ht, executionStep_ok (hcmd ▸ hdec) hu,
      congrArg (fun r : State => { r with busy := false }) heq⟩
  | error e =>
    refine ⟨_, _, executionStep_error hdec, executionStep_error (hcmd ▸ hdec), ?_⟩
    rw [raiseError_withInput]
    rfl

/-- R68, R73: a step that is no execution step is a step of the latency or one of the free bus; neither
touches the computation, nor a pending command. -/
theorem step_keeps_computation {s t : State} (hr : s.resetIn = false)
    (hnot : ¬ (s.busy = true ∧ s.delay = 0)) (h : step s = .next t) :
    SameComputation s t ∧ t.resetIn = false ∧ (s.busy = true → t.busy = true ∧ t.pend = s.pend) := by
  cases hb : s.busy with
  | true =>
    obtain ⟨d, hd⟩ := Nat.exists_eq_succ_of_ne_zero fun hd => hnot ⟨hb, hd⟩
    obtain ⟨u, hu, hreset, hbusy, -, hpend, hcomp⟩ := step_latency hr hb hd
    obtain rfl : u = t := Host.Outcome.next.inj (hu.symm.trans h)
    exact ⟨hcomp, hreset, fun _ => ⟨hbusy, hpend⟩⟩
  | false =>
    obtain rfl : busStep s = t := Host.Outcome.next.inj ((step_free hr hb).symm.trans h)
    obtain ⟨hcomp, hreset⟩ := busStep_computation s
    exact ⟨hcomp, hreset.trans hr, nofun⟩

/-- Settles O17: a step that is no execution step is what the bus brings; no word but an ABSORB reads DIN. -/
theorem onlyExecutionTouchesComputation : Obligations.OnlyExecutionTouchesComputation := by
  refine ⟨fun s t hr hnot h => ?_, fun s d e hword => ?_⟩
  · obtain ⟨⟨hphase, hmode, herr, hdg, hci, hco, hseg, hseg0⟩, hreset, hpending⟩ :=
      step_keeps_computation hr hnot h
    exact ⟨hphase, hmode, herr, hdg, hci, hco, hseg, hseg0, hreset, hpending⟩
  · exact executionStep_withInput hword (p := ⟨s.pend.cmd, d⟩) rfl e

end Sys2Proof.Machine

namespace Sys2Proof

/-! ### Decoding and encoding (R90 to R97) -/

/-- The commands that are well-formed (R97), one for each legal word. -/
def legalCommands : List Instr :=
  [.md4Init, .ed2kInit, .absorb 1, .absorb 2, .absorb 3, .absorb 4, .final, .clear]

theorem mem_legalCommands_iff (i : Instr) : i ∈ legalCommands ↔ i.WellFormed := by
  cases i with
  | absorb nb =>
    have hnb : Instr.absorb nb ∈ legalCommands ↔ nb = 1 ∨ nb = 2 ∨ nb = 3 ∨ nb = 4 := by
      simp [legalCommands]
    rw [hnb]
    exact ⟨fun h => ⟨by omega, by omega⟩, absorb_wf_cases⟩
  | _ => exact iff_of_true (by decide) trivial

theorem decode_encode {i : Instr} (h : i.WellFormed) : decode (encode i) = .ok i := by
  have hall : ∀ i ∈ legalCommands, decode (encode i) = .ok i := by decide
  exact hall i ((mem_legalCommands_iff i).2 h)

/-- Each of the 64 words with RSV 0 is illegal or the encoding of the command it decodes to. -/
theorem decode_fields (nbm1 : BitVec 2) (op : BitVec 4) :
    decode ((0 : BitVec 26) ++ nbm1 ++ op) = .error .reservedOp ∨
    decode ((0 : BitVec 26) ++ nbm1 ++ op) = .error .nonzeroNbm1 ∨
    ∃ i ∈ legalCommands, decode ((0 : BitVec 26) ++ nbm1 ++ op) = .ok i ∧
      encode i = (0 : BitVec 26) ++ nbm1 ++ op := by
  decide +revert

/-- R92: what a word decodes to is well-formed and has that word as its encoding. -/
theorem encode_of_decode {c : Word} {i : Instr} (h : decode c = .ok i) :
    i.WellFormed ∧ encode i = c := by
  induction c using word_cases with
  | reserved c hrsv => rw [decode_of_rsv hrsv] at h; cases h
  | fields nbm1 op =>
    rcases decode_fields nbm1 op with herr | herr | ⟨j, hj, hdec, henc⟩
    · rw [herr] at h; cases h
    · rw [herr] at h; cases h
    · rw [hdec] at h
      cases h
      exact ⟨(mem_legalCommands_iff i).1 hj, henc⟩

theorem decode_eq_ok_iff (c : Word) (i : Instr) : decode c = .ok i ↔ i.WellFormed ∧ encode i = c := by
  refine ⟨encode_of_decode, ?_⟩
  rintro ⟨hwf, rfl⟩
  exact decode_encode hwf

/-- Settles O4: both directions of `decode_eq_ok_iff`. -/
theorem decodeEncodeAgree : Obligations.DecodeEncodeAgree := decode_eq_ok_iff

/-! ### The legal words (R92) -/

theorem legalWord_iff_decode (c : Word) : legalWord c = true ↔ ∃ i, decode c = .ok i := by
  unfold legalWord
  cases decode c with
  | ok i => exact iff_of_true rfl ⟨i, rfl⟩
  | error e => exact iff_of_false nofun nofun

/-- R92: the legal words are the encodings of the well-formed commands. -/
theorem legalWord_iff_mem_encodings (c : Word) :
    legalWord c = true ↔ c ∈ legalCommands.map encode := by
  rw [legalWord_iff_decode, List.mem_map]
  exact exists_congr fun i => by rw [decode_eq_ok_iff, mem_legalCommands_iff]

/-- R92's condition on the fields: RSV is 0, and of the 64 words left it is checked. -/
theorem legalWord_iff_fields (c : Word) :
    legalWord c = true ↔
      opField c ∈ [0x1, 0x2, 0x3, 0x4, (0x5 : BitVec 4)] ∧ rsvField c = 0 ∧
      (opField c = 0x3 ∨ nbm1Field c = 0) := by
  induction c using word_cases with
  | reserved c hrsv =>
    refine iff_of_false ?_ fun ⟨_, h, _⟩ => hrsv h
    simp [legalWord_iff_decode, decode_of_rsv hrsv]
  | fields nbm1 op => decide +revert

/-- Settles O2: the fields, and the encodings of the eight well-formed commands. -/
theorem legalWordsAreExactlyEight : Obligations.LegalWordsAreExactlyEight :=
  fun c => ⟨legalWord_iff_fields c, legalWord_iff_mem_encodings c⟩

/-! ### The table of match and mask (R93) -/

/-- R93: no mask leaves out a bit of RSV, so a word that matches a row has RSV 0. -/
theorem rsvField_eq_zero_of_match {c : Word} {r : CommandRow} (hr : r ∈ commandTable)
    (h : c &&& r.mask = r.pattern) : rsvField c = 0 := by
  have hmask : ∀ r ∈ commandTable, rsvField r.mask = BitVec.allOnes 26 := by decide
  have hpattern : ∀ r ∈ commandTable, rsvField r.pattern = 0 := by decide
  calc rsvField c = rsvField c &&& rsvField r.mask := by rw [hmask r hr, BitVec.and_allOnes]
    _ = rsvField (c &&& r.mask) := BitVec.extractLsb'_and.symm
    _ = 0 := by rw [h, hpattern r hr]

/-- R93: the words that match a row are the encodings of its command. -/
theorem match_iff_encode {r : CommandRow} (hr : r ∈ commandTable) (c : Word) :
    c &&& r.mask = r.pattern ↔ ∃ i ∈ legalCommands, encode i = c ∧ i.mnemonic = r.mnemonic := by
  induction c using word_cases with
  | reserved c hrsv =>
    refine iff_of_false (fun h => hrsv (rsvField_eq_zero_of_match hr h)) ?_
    have henc : ∀ i ∈ legalCommands, rsvField (encode i) = 0 := by decide
    rintro ⟨i, hi, rfl, -⟩
    exact hrsv (henc i hi)
  | fields nbm1 op =>
    have hall : ∀ r ∈ commandTable, ∀ (nbm1 : BitVec 2) (op : BitVec 4),
        (0 : BitVec 26) ++ nbm1 ++ op &&& r.mask = r.pattern ↔
          ∃ i ∈ legalCommands, encode i = (0 : BitVec 26) ++ nbm1 ++ op ∧ i.mnemonic = r.mnemonic := by
      decide
    exact hall r hr nbm1 op

/-- R93: a word matches a row iff it decodes to the row's command. -/
theorem match_iff_decode {r : CommandRow} (hr : r ∈ commandTable) (c : Word) :
    c &&& r.mask = r.pattern ↔ ∃ i, decode c = .ok i ∧ i.mnemonic = r.mnemonic := by
  rw [match_iff_encode hr]
  exact exists_congr fun i => by rw [decode_eq_ok_iff, mem_legalCommands_iff, and_assoc]

/-- R93: the rows are disjoint, because a word decodes to one command and no two rows share a
mnemonic. -/
theorem commandTable_disjoint (c : Word) :
    commandTable.Pairwise fun r q => ¬ (c &&& r.mask = r.pattern ∧ c &&& q.mask = q.pattern) := by
  have hnames : commandTable.Pairwise fun r q => r.mnemonic ≠ q.mnemonic := by decide
  refine hnames.imp_of_mem fun hr hq hne => ?_
  rw [match_iff_decode hr, match_iff_decode hq]
  rintro ⟨⟨i, hi, hir⟩, j, hj, hjq⟩
  obtain rfl : i = j := Except.ok.inj (hi.symm.trans hj)
  exact hne (hir.symm.trans hjq)

theorem exists_row_of_mnemonic (i : Instr) : ∃ r ∈ commandTable, i.mnemonic = r.mnemonic := by
  have habsorb : ∃ r ∈ commandTable, "ABSORB" = r.mnemonic := by decide
  cases i with
  | absorb nb => exact habsorb
  | _ => decide

/-- R93: the rows cover the legal words, because every command has a row. -/
theorem legalWord_iff_match (c : Word) :
    legalWord c = true ↔ ∃ r ∈ commandTable, c &&& r.mask = r.pattern := by
  rw [legalWord_iff_decode]
  constructor
  · rintro ⟨i, hi⟩
    obtain ⟨r, hr, hname⟩ := exists_row_of_mnemonic i
    exact ⟨r, hr, (match_iff_decode hr c).2 ⟨i, hi, hname⟩⟩
  · rintro ⟨r, hr, hmatch⟩
    obtain ⟨i, hi, -⟩ := (match_iff_decode hr c).1 hmatch
    exact ⟨i, hi⟩

/-- R94: NBM1 holds the number of bytes less one. -/
theorem absorb_of_decode {c : Word} {nb : Nat} (h : decode c = .ok (.absorb nb)) :
    nb = (nbm1Field c).toNat + 1 := by
  obtain ⟨hwf, rfl⟩ := encode_of_decode h
  rcases absorb_wf_cases hwf with rfl | rfl | rfl | rfl <;> rfl

/-- Settles O3: the table as written, and its agreement with the decoder row by row. -/
theorem matchMaskTableAgrees : Obligations.MatchMaskTableAgrees :=
  ⟨rfl, fun c => ⟨fun _ hr => match_iff_decode hr c, fun _ => absorb_of_decode,
    commandTable_disjoint c, legalWord_iff_match c⟩⟩

/-! ### Sample words (R90, R91, R97) -/

/-- Settles O1: eight encodings of well-formed commands, and one illegal word of each kind. -/
theorem sampleWordsDecode : Obligations.SampleWordsDecode := by
  have hrsv : rsvField 0x00000043 ≠ 0 := by decide
  refine ⟨decode_encode (i := .md4Init) trivial, decode_encode (i := .ed2kInit) trivial,
    decode_encode (i := .absorb 1) (by decide), decode_encode (i := .absorb 2) (by decide),
    decode_encode (i := .absorb 3) (by decide), decode_encode (i := .absorb 4) (by decide),
    decode_encode (i := .final) trivial, decode_encode (i := .clear) trivial, ?_,
    decode_of_rsv hrsv, ?_⟩
  · decide
  · decide

end Sys2Proof

namespace Sys2Proof.Machine

/-! ### The oldest access is answered (R66, R70, R190, R275) -/

/-- A host that waits in `s` for reply number `k` gets the word and the state of `r`, in some number of
steps. -/
def State.Gets (s : State) (k : Nat) (r : Word × State) : Prop := ∃ steps, awaitData steps k s = some r

theorem State.Gets.of_step {s t : State} {k : Nat} {r : Word × State} (hk : s.replies.length ≤ k)
    (h : step s = .next t) : t.Gets k r → s.Gets k r := by
  rintro ⟨steps, hr⟩
  exact ⟨steps + 1, (awaitData_step steps hk h).trans hr⟩

/-- R70: an access that is not held is taken off the bus and answered. -/
theorem busStep_answers {s : State} {a : BusAccess} {rest : List BusAccess} (hbus : s.bus = a :: rest)
    (hfree : isHeld a s = false) :
    (busStep s).bus = rest ∧ (busStep s).replies.length = s.replies.length + 1 := by
  rw [busStep_done hbus hfree]
  exact ⟨performAccess_bus a _, by simp⟩

/-- `busStep u` is where the oldest access `a` of `s` is answered: what comes before it, a latency and an
execution step at most, answers nothing. A command that is still pending in `u` has less of its
latency left than in `s`. -/
structure AnswersIn (a : BusAccess) (s u : State) : Prop where
  resetIn : u.resetIn = false
  bus : u.bus = s.bus
  replies : u.replies = s.replies
  free : isHeld a u = false
  latency : u.busy = true → u.delay < s.delay
  gets : ∀ {k r}, s.replies.length ≤ k → (busStep u).Gets k r → s.Gets k r

theorem AnswersIn.of_not_busy (a : BusAccess) {s : State} (hr : s.resetIn = false)
    (hb : s.busy = false) : AnswersIn a s s :=
  ⟨hr, rfl, rfl, isHeld_of_not_busy a hb, by simp [hb],
    fun hk => .of_step hk (step_free hr hb)⟩

/-- A step before, that answered nothing. -/
theorem AnswersIn.of_step {a : BusAccess} {s t u : State} (h : AnswersIn a t u) (hs : step s = .next t)
    (hbus : t.bus = s.bus) (hreplies : t.replies = s.replies)
    (hlatency : u.busy = true → t.delay ≤ s.delay) : AnswersIn a s u :=
  ⟨h.resetIn, h.bus.trans hbus, h.replies.trans hreplies, h.free,
    fun hb => (h.latency hb).trans_le (hlatency hb),
    fun hk hg => .of_step hk hs (h.gets (hreplies ▸ hk) hg)⟩

/-- Behind a pending command: while the latency lasts the access is answered or held, and the execution
step ends the hold. -/
theorem exists_answersIn_of_busy {a : BusAccess} {rest : List BusAccess} :
    ∀ {n : Nat} {s : State}, s.resetIn = false → s.bus = a :: rest → s.busy = true → s.delay = n →
      ∃ u, AnswersIn a s u
  | 0, s, hr, _, hb, hd => by
    obtain ⟨u, hexec⟩ := executionStep_answers s
    obtain ⟨hfree, hreset, hbus, hreplies, -⟩ := executionStep_hostSide hexec
    have hu : AnswersIn a u u := .of_not_busy a (hreset.trans hr) hfree
    exact ⟨u, hu.of_step ((step_due hr hb hd).trans hexec) hbus hreplies (by simp [hfree])⟩
  | n + 1, s, hr, hbus, hb, hd => by
    have hstep := step_waits hr hb hd
    have hless : n < s.delay := by omega
    cases hheld : isHeld a s with
    | false =>
      exact ⟨{ s with delay := n }, hr, rfl, rfl, hheld, fun _ => hless, fun hk => .of_step hk hstep⟩
    | true =>
      rw [busStep_held (s := { s with delay := n }) hbus hheld] at hstep
      obtain ⟨u, hu⟩ := exists_answersIn_of_busy (s := { s with delay := n }) hr hbus hb rfl
      exact ⟨u, hu.of_step hstep rfl rfl fun _ => hless.le⟩

theorem exists_answersIn {a : BusAccess} {rest : List BusAccess} {s : State} (hr : s.resetIn = false)
    (hbus : s.bus = a :: rest) : ∃ u, AnswersIn a s u := by
  cases hb : s.busy with
  | false => exact ⟨s, .of_not_busy a hr hb⟩
  | true => exact exists_answersIn_of_busy hr hbus hb rfl

/-! ### A read of STATUS behind other accesses (R67, R70) -/

/-- A host that waits in `s` for reply number `k` gets STATUS as it is in `t`, and nothing is left on the
bus then. -/
structure StatusAnswered (k : Nat) (s t : State) : Prop where
  resetIn : t.resetIn = false
  bus : t.bus = []
  replies : t.replies.length = k + 1
  gets : s.Gets k (statusWord t, t)

/-- A read of STATUS that the bus takes up, which it never holds, answers STATUS as it is after it. -/
theorem busStep_readStatus {s : State} {rest : List BusAccess} (hbus : s.bus = busRead 0x08 :: rest) :
    busStep s = { s with bus := rest, replies := s.replies ++ [.data (statusWord s)] } ∧
    statusWord (busStep s) = statusWord s := by
  have hfree : isHeld (busRead 0x08) s = false := (busRead_at s rfl regAt_08).2.trans (Bool.and_false _)
  have hread : busStep s = { s with bus := rest, replies := s.replies ++ [.data (statusWord s)] } :=
    busStep_read hbus rfl hfree
  exact ⟨hread, by rw [hread]; rfl⟩

/-- A read of STATUS alone on the bus is answered; if a command is pending still, its latency has got
shorter. -/
theorem exists_statusAnswered_of_alone {s : State} (hr : s.resetIn = false)
    (hbus : s.bus = [busRead 0x08]) :
    ∃ t, StatusAnswered s.replies.length s t ∧ (t.busy = true → t.delay < s.delay) := by
  obtain ⟨u, hreset, hubus, hreplies, -, hlatency, hgets⟩ := exists_answersIn hr hbus
  obtain ⟨hread, hstatus⟩ := busStep_readStatus (hubus.trans hbus)
  have hanswer : (busStep u).replies[s.replies.length]? = some (.data (statusWord (busStep u))) := by
    rw [hstatus, hread, ← hreplies]
    simp
  have hlen : (busStep u).replies.length = s.replies.length + 1 := by
    rw [hread, ← hreplies]
    simp
  have hgot := hgets le_rfl ⟨0, awaitData_answered 0 hanswer⟩
  have hreset' := (busStep_computation u).2.trans hreset
  exact ⟨busStep u, ⟨hreset', by rw [hread], hlen, hgot⟩, by rw [hread]; exact hlatency⟩

/-- A read of STATUS behind any accesses is answered after them. -/
theorem exists_statusAnswered : ∀ {earlier : List BusAccess} {s : State}, s.resetIn = false →
    s.bus = earlier ++ [busRead 0x08] → ∃ t, StatusAnswered (s.replies.length + earlier.length) s t
  | [], s, hr, hbus => by
    obtain ⟨t, ht, -⟩ := exists_statusAnswered_of_alone hr hbus
    exact ⟨t, ht⟩
  | a :: earlier, s, hr, hbus => by
    obtain ⟨u, hreset, hubus, hreplies, hfree, -, hgets⟩ := exists_answersIn hr hbus
    obtain ⟨hrest, hlen⟩ := busStep_answers (hubus.trans hbus) hfree
    have hreset' := (busStep_computation u).2.trans hreset
    obtain ⟨t, ht⟩ := exists_statusAnswered hreset' hrest
    have hcount : (busStep u).replies.length + earlier.length =
        s.replies.length + (a :: earlier).length := by
      rw [hlen, hreplies, List.length_cons]; omega
    rw [hcount] at ht
    exact ⟨t, ht.resetIn, ht.bus, ht.replies, hgets (Nat.le_add_right _ _) ht.gets⟩

/-! ### The turns of WAIT (R98, R271) -/

/-- WAIT from `s` ends in `t`, an engine that is not busy, all that was on the bus answered. -/
structure WaitEndsIn (s t : State) : Prop where
  ends : ∃ steps turns, waitLoop steps turns s = some (statusWord t, t)
  free : t.busy = false
  bus : t.bus = []
  replies : s.replies.length + s.bus.length < t.replies.length

theorem waitLoop_last {s t : State} {steps turns : Nat} (h : readStatus steps s = some (statusWord t, t))
    (hb : t.busy = false) : waitLoop steps (turns + 1) s = some (statusWord t, t) := by
  simp only [waitLoop, h, statusWord_busy, hb, Bool.false_eq_true, if_false]

theorem waitLoop_again {s t : State} {steps turns : Nat} (h : readStatus steps s = some (statusWord t, t))
    (hb : t.busy = true) : waitLoop steps (turns + 1) s = waitLoop steps turns t := by
  simp only [waitLoop, h, statusWord_busy, hb, if_true]

/-- More steps for each turn than it takes change nothing. -/
theorem waitLoop_mono {m n turns : Nat} (hmn : m ≤ n) {s : State} {r : Word × State}
    (h : waitLoop m turns s = some r) : waitLoop n turns s = some r := by
  induction turns generalizing s with
  | zero => cases h
  | succ turns ih =>
    cases hread : readStatus m s with
    | none => simp [waitLoop, hread] at h
    | some vt =>
      have hread' : readStatus n s = some vt := awaitData_mono hmn hread
      simp only [waitLoop, hread, hread'] at h ⊢
      split
      · next hbusy => rw [if_pos hbusy] at h; exact ih h
      · next hbusy => rw [if_neg hbusy] at h; exact h

/-- The turn that reads STATUS as it is in `t` ends WAIT if BUSY = 0 there, and else goes on from `t`. -/
theorem exists_waitEndsIn_of_turn {s t : State}
    (h : StatusAnswered (s.replies.length + s.bus.length) (s.issue (busRead 0x08)) t)
    (again : t.busy = true → ∃ u, WaitEndsIn t u) : ∃ u, WaitEndsIn s u := by
  obtain ⟨-, hbus, hreplies, steps, hread⟩ := h
  have hmore : s.replies.length + s.bus.length < t.replies.length := by omega
  cases hb : t.busy with
  | false => exact ⟨t, ⟨steps, 1, waitLoop_last hread hb⟩, hb, hbus, hmore⟩
  | true =>
    obtain ⟨u, ⟨steps', turns, hloop⟩, hfree, hubus, hureplies⟩ := again hb
    have hread' : readStatus (max steps steps') s = some (statusWord t, t) :=
      awaitData_mono (le_max_left _ _) hread
    refine ⟨u, ⟨max steps steps', turns + 1, ?_⟩, hfree, hubus, by omega⟩
    rw [waitLoop_again hread' hb]
    exact waitLoop_mono (le_max_right _ _) hloop

/-- With nothing else on the bus, each turn that reads BUSY = 1 leaves less of the latency. -/
theorem exists_waitEndsIn_of_empty {s : State} (hr : s.resetIn = false) (hbus : s.bus = []) :
    ∃ u, WaitEndsIn s u := by
  induction hn : s.delay using Nat.strong_induction_on generalizing s with
  | _ n ih =>
    have halone : (s.issue (busRead 0x08)).bus = [busRead 0x08] := by simp [hbus]
    obtain ⟨t, ht, hlatency⟩ := exists_statusAnswered_of_alone (s := s.issue _) hr halone
    refine exists_waitEndsIn_of_turn (t := t) (by simpa [hbus] using ht) fun hb => ?_
    exact ih t.delay (hn ▸ hlatency hb) ht.resetIn ht.bus rfl

/-- Settles O20: the first turn answers all that was on the bus; after it, induction on the latency. -/
theorem waitLoopEnds : Obligations.WaitLoopEnds := by
  intro s hr
  obtain ⟨t, ht⟩ := exists_statusAnswered (earlier := s.bus) (s := s.issue (busRead 0x08)) hr rfl
  obtain ⟨u, ⟨steps, turns, hloop⟩, hfree, hbus, hreplies⟩ :=
    exists_waitEndsIn_of_turn (s := s) ht fun _ => exists_waitEndsIn_of_empty ht.resetIn ht.bus
  exact ⟨steps, turns, statusWord u, u, hloop, (statusWord_busy u).trans hfree, hfree, hbus,
    hreplies, rfl⟩

end Sys2Proof.Machine

namespace Sys2Proof.Machine

/-! ### The round functions (R112 to R114) -/

theorem roundF_getLsbD (x y z : Word) (i : Nat) :
    (roundF x y z).getLsbD i = if x.getLsbD i then y.getLsbD i else z.getLsbD i := by
  unfold roundF
  rw [BitVec.getLsbD_or, BitVec.getLsbD_and, BitVec.getLsbD_and, BitVec.getLsbD_not]
  by_cases hi : i < 32
  · cases x.getLsbD i <;> simp [hi]
  · have hz : z.getLsbD i = false := BitVec.getLsbD_of_ge _ _ (by omega)
    simp [hi, hz]

/-- R113: a bit of G is the majority of the three bits. -/
theorem roundG_getLsbD (x y z : Word) (i : Nat) :
    (roundG x y z).getLsbD i = true ↔ 2 ≤ [x.getLsbD i, y.getLsbD i, z.getLsbD i].count true := by
  have majority : ∀ a b c : Bool, (a && b || a && c || b && c) = true ↔ 2 ≤ [a, b, c].count true := by
    decide
  unfold roundG
  rw [BitVec.getLsbD_or, BitVec.getLsbD_or, BitVec.getLsbD_and, BitVec.getLsbD_and, BitVec.getLsbD_and]
  exact majority _ _ _

theorem roundH_getLsbD (x y z : Word) (i : Nat) :
    (roundH x y z).getLsbD i = (x.getLsbD i ^^ y.getLsbD i ^^ z.getLsbD i) := by
  unfold roundH
  rw [BitVec.getLsbD_xor, BitVec.getLsbD_xor]

theorem roundF_ones (y z : Word) : roundF 0xFFFFFFFF y z = y := by
  change BitVec.allOnes 32 &&& y ||| ~~~BitVec.allOnes 32 &&& z = y
  rw [BitVec.not_allOnes, BitVec.allOnes_and, BitVec.zero_and, BitVec.or_zero]

theorem roundF_zero (y z : Word) : roundF 0 y z = z := by
  change 0#32 &&& y ||| ~~~0#32 &&& z = z
  rw [BitVec.not_zero, BitVec.zero_and, BitVec.allOnes_and, BitVec.zero_or]

theorem roundG_swap_left (x y z : Word) : roundG x y z = roundG y x z := by
  unfold roundG
  rw [BitVec.and_comm x y, BitVec.or_assoc, BitVec.or_comm (x &&& z), ← BitVec.or_assoc]

theorem roundG_swap_right (x y z : Word) : roundG x y z = roundG x z y := by
  unfold roundG
  rw [BitVec.and_comm y z, BitVec.or_comm (x &&& y)]

theorem roundH_swap_left (x y z : Word) : roundH x y z = roundH y x z :=
  congrArg (· ^^^ z) (BitVec.xor_comm x y)

theorem roundH_swap_right (x y z : Word) : roundH x y z = roundH x z y := by
  unfold roundH
  rw [BitVec.xor_assoc, BitVec.xor_comm y z, ← BitVec.xor_assoc]

/-- Settles O39: the three functions bit by bit, F at the ends, the two swaps that generate the symmetry
of G and H, and the examples. -/
theorem roundFunctionsBitwise : Obligations.RoundFunctionsBitwise := fun x y z =>
  ⟨roundF_getLsbD x y z, roundG_getLsbD x y z, roundH_getLsbD x y z, roundF_ones y z, roundF_zero y z,
    roundG_swap_left x y z, roundG_swap_right x y z, roundH_swap_left x y z, roundH_swap_right x y z,
    by decide⟩

/-! ### The rotation of the registers (R116, R117, R122) -/

/-- R116: the role at offset r of step n is the remainder of r − n. -/
theorem role_val (n r : Nat) : ((role n r).val : Int) = ((r : Int) - n) % 4 := by
  unfold role
  dsimp only
  omega

/-- R116: the roles go round with period 4. -/
theorem role_mod (n r : Nat) : role n r = role (n % 4) r := by
  simp only [role, Nat.mod_mod]

theorem md4Step_dest (fn : Word → Word → Word → Word) (x k : Word) (sh n : Nat) (w : HashWords) :
    (md4Step fn x k sh n w)[role n 0] =
      rotl (w[role n 0] + fn w[role n 1] w[role n 2] w[role n 3] + x + k) sh :=
  Vector.getElem_set_self _

theorem md4Step_other (fn : Word → Word → Word → Word) (x k : Word) (sh : Nat) {n : Nat} (w : HashWords)
    {j : Fin 4} (hj : j ≠ role n 0) : (md4Step fn x k sh n w)[j] = w[j] :=
  Vector.getElem_set_ne _ _ fun h => hj (Fin.ext h.symm)

/-- Settles O41: the roles as remainders, their table from the period, and the one register a step
writes. -/
theorem registerRotation : Obligations.RegisterRotation := by
  refine ⟨fun n => ⟨by simpa using role_val n 0, role_val n 1, role_val n 2, role_val n 3, ?_⟩,
    fun fn x k sh n w => ⟨md4Step_dest fn x k sh n w, fun j => md4Step_other fn x k sh w⟩⟩
  rw [role_mod n 0, role_mod n 1, role_mod n 2, role_mod n 3]
  refine ⟨?_, ?_, ?_, ?_⟩ <;> (intro hn; rw [hn]; rfl)

/-! ### The words of a block (R111, R13) -/

theorem toNat_append_eq_add {v w : Nat} (x : BitVec v) (y : BitVec w) :
    (x ++ y).toNat = 2 ^ w * x.toNat + y.toNat := by
  rw [BitVec.toNat_append, ← Nat.shiftLeft_add_eq_or_of_lt y.isLt, Nat.shiftLeft_eq, Nat.mul_comm]

/-- R13: LE32 as a sum, the first byte the least significant. -/
theorem le32_toNat (b0 b1 b2 b3 : Byte) :
    (le32 b0 b1 b2 b3).toNat =
      b0.toNat + 2 ^ 8 * b1.toNat + 2 ^ 16 * b2.toNat + 2 ^ 24 * b3.toNat := by
  unfold le32
  rw [toNat_append_eq_add, toNat_append_eq_add, toNat_append_eq_add]
  omega

theorem bytesLE32_le32 (b0 b1 b2 b3 : Byte) : bytesLE32 (le32 b0 b1 b2 b3) = [b0, b1, b2, b3] := by
  obtain ⟨h0, h1, h2, h3⟩ := byteOf_le32 b0 b1 b2 b3
  unfold bytesLE32
  rw [h0, h1, h2, h3]

/-- Settles O43: the sum of `le32_toNat` for each word of the block. -/
theorem messageWordsLittleEndian : Obligations.MessageWordsLittleEndian := by
  refine ⟨fun blk i => ?_, bytesLE32_le32⟩
  have hword : (messageWords blk)[i] =
      le32 blk[4 * i.val] blk[4 * i.val + 1] blk[4 * i.val + 2] blk[4 * i.val + 3] :=
    Vector.getElem_ofFn _
  rw [hword, le32_toNat]

/-! ### Compress by the table of steps (R121) -/

/-- A row of R121's table: destination, the three operands in order, index of the message word, shift. -/
abbrev StepRow := Fin 4 × Fin 4 × Fin 4 × Fin 4 × Fin 16 × Nat

/-- R121: one row of the table, with a round's function and constant. -/
def rowStep (x : Vector Word 16) (fn : Word → Word → Word → Word) (k : Word) (w : HashWords)
    (r : StepRow) : HashWords :=
  w.set r.1 (rotl (w[r.1] + fn w[r.2.1] w[r.2.2.1] w[r.2.2.2.1] + x[r.2.2.2.2.1] + k) r.2.2.2.2.2)

/-- The row of step n in a round that takes message word `index n` and shifts by `sched`. -/
def stepRow (index : Fin 16 → Fin 16) (sched : Vector Nat 4) (n : Fin 16) : StepRow :=
  (role n 0, role n 1, role n 2, role n 3, index n, shiftAt sched n)

/-- R118: the message word of round-2 step n. -/
def round2Index (n : Fin 16) : Fin 16 := ⟨n.val % 4 * 4 + n.val / 4, by omega⟩

/-- The 48 steps are the folds over the rows of the three rounds, in order (R120): each step is, by its
definition, the row of its index. -/
theorem allSteps_rows (x : Vector Word 16) (w : HashWords) :
    allSteps x w =
      ((List.finRange 16).map (stepRow (p3[·]) s3)).foldl (rowStep x roundH k3)
        (((List.finRange 16).map (stepRow round2Index s2)).foldl (rowStep x roundG k2)
          (((List.finRange 16).map (stepRow id s1)).foldl (rowStep x roundF k1) w)) := by
  rw [List.foldl_map, List.foldl_map, List.foldl_map]
  rfl

theorem compress_getElem (h : HashWords) (blk : Block) (k : Fin 4) :
    (compress h blk)[k] = h[k] + (allSteps (messageWords blk) h)[k] := Vector.getElem_zipWith _

/-- Settles O42: each column of the table is what `stepRow` computes, round by round. -/
theorem compressFollowsTheStepTable : Obligations.CompressFollowsTheStepTable := by
  intro h blk x row one two three w k
  have h1 : (List.finRange 16).map (stepRow id s1) = one := by decide
  have h2 : (List.finRange 16).map (stepRow round2Index s2) = two := by decide
  have h3 : (List.finRange 16).map (stepRow (p3[·]) s3) = three := by decide
  have hw : allSteps x h = w := by
    rw [allSteps_rows, h1, h2, h3]
    rfl
  rw [compress_getElem, hw]

/-! ### Padding (R130) -/

theorem padZeros_val (len : Nat) : (padZeros len : Int) = (55 - (len : Int)) % 64 := by
  unfold padZeros
  omega

theorem padZeros_fits (len : Nat) : (len + 1 + padZeros len) % 64 = 56 := by
  unfold padZeros
  omega

theorem padZeros_least {len y : Nat} (h : y < padZeros len) : (len + 1 + y) % 64 ≠ 56 := by
  unfold padZeros at h
  omega

/-- The blocks of a padded message: one for each 64 bytes of the message and its length field of 8
bytes, begun or not. -/
theorem padded_blocks (len : Nat) : (len + (pad len).length) / 64 = (len + 8) / 64 + 1 := by
  rw [pad_length]
  unfold padZeros
  omega

/-- Settles O44: z is `padZeros`. -/
theorem paddingShape : Obligations.PaddingShape := by
  intro len hlen
  have hz : padZeros len < 64 := Nat.mod_lt _ (by decide)
  have hbits : (BitVec.ofNat 64 (8 * len)).toNat = 8 * len := by
    rw [BitVec.toNat_ofNat, Nat.mod_eq_of_lt (by omega)]
  have hwhole : (len + (pad len).length) % 64 = 0 := by
    rw [padded_length, Nat.mul_mod_right]
  have hlength := pad_length len
  exact ⟨padZeros len, padZeros_val len, padZeros_fits len, fun y => padZeros_least, rfl, hbits, hlength,
    by omega, by omega, hwhole, padded_blocks len⟩

/-! ### The streaming form (R132 to R136) -/

/-- R132: from Md4Init the bytes of a message of at most LEN_MAX bytes are absorbed, as a feeding. -/
theorem md4Init_absorbs {m : List Byte} (hm : m.length ≤ lenMax) :
    ∃ c, m.foldlM md4Absorb md4Init = some c ∧ c.len.toNat = m.length ∧
      c.feed = m.foldl Feed.byte md4Init.feed := by
  obtain ⟨c, hc, hlen⟩ := absorbList_isSome m md4Init (by simpa using hm)
  exact ⟨c, hc, by simpa using hlen, absorbList_feed m md4Init c hc⟩

/-- R135: feeding m from an empty block hashes its whole blocks and leaves the rest at the start of the
block: the whole blocks are fed first, and the rest does not fill another. -/
theorem feed_message (m : List Byte) {f : Feed} (hf : f.fill = 0) :
    (m.foldl Feed.byte f).h = hashBlocks f.h m (m.length / 64) ∧
    ∀ i < m.length % 64, (m.foldl Feed.byte f).buf[i]? = m[64 * (m.length / 64) + i]? := by
  obtain ⟨hh, hfill⟩ := feed_blocks m f hf (Nat.mul_div_le m.length 64)
  have hrest : (m.drop (64 * (m.length / 64))).length = m.length % 64 := by
    rw [List.length_drop]; omega
  have hsplit : m.foldl Feed.byte f = (m.drop (64 * (m.length / 64))).foldl Feed.byte
      ((m.take (64 * (m.length / 64))).foldl Feed.byte f) := by
    rw [← List.foldl_append, List.take_append_drop]
  obtain ⟨hkept, -, -, hplaced⟩ := feed_partial (m.drop (64 * (m.length / 64)))
    ((m.take (64 * (m.length / 64))).foldl Feed.byte f) (by omega)
  rw [hsplit]
  refine ⟨hkept.trans hh, fun i hi => ?_⟩
  have hbyte := hplaced i (hrest ▸ hi)
  rwa [hfill, Nat.zero_add, List.getElem?_drop] at hbyte

/-- Settles O46: absorbing is feeding, and feeding is `feed_message`. -/
theorem streamedContextDeterminedByMessage : Obligations.StreamedContextDeterminedByMessage := by
  intro m hm
  obtain ⟨c, hc, hlen, hfeed⟩ := md4Init_absorbs hm
  obtain ⟨hh, hbuf⟩ := feed_message m (f := md4Init.feed) rfl
  rw [← hfeed] at hh hbuf
  exact ⟨c, hc, hlen, hh, hbuf⟩

/-- Settles O47: Md4Finalize feeds the padding on, so what is fed is the padded message, and
`feed_message` hashes its blocks. -/
theorem streamingMd4IsMd4Digest : Obligations.StreamingMd4IsMd4Digest := by
  intro m hm
  obtain ⟨c, hc, hlen, hfeed⟩ := md4Init_absorbs hm
  have hh : (md4Finalize c).h = md4Words m := calc
    (md4Finalize c).h = ((m ++ pad m.length).foldl Feed.byte md4Init.feed).h := by
      rw [md4Finalize_h, hlen, hfeed, List.foldl_append]
    _ = md4Words m := (feed_message (m ++ pad m.length) rfl).1
  exact ⟨c, hc, congrArg serialize hh⟩

/-! ### One byte absorbed (R132) -/

/-- R132's example: the block of 64 zero bytes compressed from IV. -/
theorem compress_iv_zeros :
    compress iv (Vector.replicate 64 0) = #v[0x015155EF, 0x2E5F67AB, 0x3681C98D, 0x7447AB15] := by
  decide +kernel

/-- Settles O45: the effect of `md4Absorb_some` byte by byte of BUF; the example is one block of zeros
compressed, by R135. -/
theorem md4AbsorbEffect : Obligations.Md4AbsorbEffect := by
  refine ⟨md4Absorb_none_iff, fun c d b hd => ?_, ?_⟩
  · obtain ⟨-, hlen, hbuf, hh⟩ := md4Absorb_some hd
    refine ⟨hlen, ?_, fun j hj hne => ?_, hh⟩
    · simp only [hbuf]; exact Vector.getElem_setIfInBounds_self _
    · simp only [hbuf]; exact Vector.getElem_setIfInBounds_ne _ hne.symm
  · obtain ⟨c, hc, hlen, hh, -⟩ :=
      streamedContextDeterminedByMessage (List.replicate 64 0) (by decide)
    have hblock : blockAt (List.replicate 64 0) 0 = Vector.replicate 64 0 := by decide
    refine ⟨c, hc, BitVec.eq_of_toNat_eq hlen, ?_⟩
    rw [hh, List.length_replicate, Nat.div_self (by decide), hashBlocks_succ, hashBlocks_zero, hblock,
      compress_iv_zeros]

end Sys2Proof.Machine

namespace Sys2Proof.Machine

/-! ### Cutting a message into segments (R161, R162) -/

/-- Segment `s` exists exactly if the message goes on after `s` whole segments. -/
theorem lt_segmentCount_iff (s len : Nat) : s < segmentCount len ↔ s * 9728000 < len := by
  unfold segmentCount chunkSize
  omega

theorem segmentCount_mul (k : Nat) : segmentCount (k * 9728000) = k := by
  unfold segmentCount chunkSize
  omega

theorem segmentCount_of_pos {len : Nat} (h : 0 < len) :
    segmentCount len = segmentCount (len - chunkSize) + 1 := by
  unfold segmentCount chunkSize
  omega

theorem segmentAt_length (m : List Byte) (s : Nat) :
    (segmentAt m s).length = min 9728000 (m.length - s * 9728000) := by
  simp only [segmentAt, List.length_take, List.length_drop, chunkSize]

theorem segmentAt_zero (m : List Byte) : segmentAt m 0 = m.take chunkSize := by
  simp [segmentAt]

theorem segmentAt_succ (m : List Byte) (s : Nat) :
    segmentAt m (s + 1) = segmentAt (m.drop chunkSize) s := by
  rw [segmentAt, segmentAt, List.drop_drop, Nat.succ_mul, Nat.add_comm chunkSize]

/-- The first `n` segments are the first `n * CHUNK_SIZE` bytes, in order and without gap. -/
theorem segments_flatten (m : List Byte) (n : Nat) :
    ((List.range n).map (segmentAt m)).flatten = m.take (n * chunkSize) := by
  induction n with
  | zero => simp
  | succ n ih =>
    rw [List.range_succ, List.map_append, List.flatten_append, ih, Nat.succ_mul, List.take_add]
    simp [segmentAt]

/-- Settles O49: by `segments_flatten` the segments are a prefix of the message, and by
`lt_segmentCount_iff` no byte is left after the last of them; the rest are lengths. -/
theorem segmentPartition : Obligations.SegmentPartition := by
  intro m
  have hall : m.length ≤ segmentCount m.length * chunkSize :=
    Nat.le_of_not_lt fun h => Nat.lt_irrefl _ ((lt_segmentCount_iff _ _).2 h)
  refine ⟨?_, fun s hs => ?_, fun s hs => ?_, ?_, fun k hk => ?_⟩
  · rw [segments_flatten, List.take_of_length_le hall]
  · rw [lt_segmentCount_iff] at hs
    rw [segmentAt_length]
    omega
  · rw [lt_segmentCount_iff] at hs
    rw [segmentAt_length]
    omega
  · have hzero := lt_segmentCount_iff 0 m.length
    omega
  · rw [hk, segmentCount_mul]

/-! ### The intermediate buffer and `ed2k_digest` (R163 to R165, R175) -/

@[simp] theorem segmentDigests_nil : segmentDigests [] = [] := by decide

/-- Stated for any `f`, so that the kernel never evaluates a digest while it compares the two sides. -/
theorem flatten_map_range_succ {α : Type} (f : Nat → List α) (n : Nat) :
    ((List.range (n + 1)).map f).flatten = f 0 ++ ((List.range n).map fun s => f (s + 1)).flatten := by
  simp [List.range_succ_eq_map, Function.comp_def]

/-- The buffer of a message that is not empty: its first segment's digest, then the buffer of what is
left after that segment. -/
theorem segmentDigests_of_pos {m : List Byte} (h : 0 < m.length) :
    segmentDigests m = md4Digest (m.take chunkSize) ++ segmentDigests (m.drop chunkSize) := by
  have hcount : segmentCount m.length = segmentCount (m.drop chunkSize).length + 1 := by
    rw [List.length_drop, segmentCount_of_pos h]
  simp only [segmentDigests, hcount, flatten_map_range_succ, segmentAt_zero, segmentAt_succ]

/-- One segment leaves its digest alone in the buffer. -/
theorem segmentDigests_single {m : List Byte} (h : 0 < m.length) (hle : m.length ≤ chunkSize) :
    segmentDigests m = md4Digest m := by
  rw [segmentDigests_of_pos h, List.take_of_length_le hle, List.drop_eq_nil_of_le hle,
    segmentDigests_nil, List.append_nil]

theorem ed2kDigest_single {m : List Byte} (h : 0 < m.length) (hle : m.length ≤ chunkSize) :
    ed2kDigest m = md4Digest m := by
  rw [ed2kDigest, if_pos ⟨h, hle⟩, segmentDigests_single h hle]

theorem ed2kDigest_long {m : List Byte} (h : chunkSize < m.length) :
    ed2kDigest m = md4Digest (segmentDigests m) := by
  rw [ed2kDigest, if_neg fun hm => Nat.not_le_of_lt h hm.2]

/-- R165: the buffer of the empty message is empty. -/
theorem ed2kDigest_nil : ed2kDigest [] = md4Digest [] := by
  rw [ed2kDigest, if_neg fun hm => Nat.lt_irrefl 0 hm.1, segmentDigests_nil]

/-- R165, V-S1. -/
theorem md4Digest_nil : md4Digest [] = [0x31, 0xd6, 0xcf, 0xe0, 0xd1, 0x6a, 0xe9, 0x31, 0xb7, 0x3c, 0x59,
    0xd7, 0xe0, 0xc0, 0x89, 0xc0] := by
  decide +kernel

/-- Settles O50: a byte after the first segment is a message of one segment, so the buffer holds two
digests. -/
theorem ed2kBoundaries : Obligations.Ed2kBoundaries := by
  refine ⟨fun m => ed2kDigest_single, fun m hm => ?_, ed2kDigest_nil, md4Digest_nil⟩
  have hlong : chunkSize < m.length := hm ▸ Nat.lt_succ_self chunkSize
  have hrest : (m.drop chunkSize).length = 1 := by
    rw [List.length_drop, hm, chunkSize]
  rw [ed2kDigest_long hlong, segmentDigests_of_pos (Nat.zero_lt_of_lt hlong),
    segmentDigests_single (by omega) (by rw [hrest]; decide), chunkSize]

end Sys2Proof.Machine

namespace Sys2Proof.Machine

/-! ### The execution step of a due command (R190, R275) -/

/-- Settles O13: the step is the execution step, and that of a legal word is its command. -/
theorem stepRunsPendingCommand : Obligations.StepRunsPendingCommand := by
  intro s i hr hb hd hdec
  obtain ⟨t, ht⟩ := exec_answers i s
  rw [step_due hr hb hd, executionStep_ok hdec ht, ht]

theorem step_answers (s : State) : ∃ t, step s = .next t := by
  cases hr : s.resetIn with
  | true => exact ⟨_, step_reset hr⟩
  | false =>
    cases hb : s.busy with
    | false => exact ⟨_, step_free hr hb⟩
    | true =>
      cases hd : s.delay with
      | zero =>
        obtain ⟨t, ht⟩ := executionStep_answers s
        exact ⟨t, (step_due hr hb hd).trans ht⟩
      | succ d => exact ⟨_, step_waits hr hb hd⟩

theorem SameComputation.refl (s : State) : SameComputation s s :=
  ⟨rfl, rfl, rfl, rfl, rfl, rfl, rfl, rfl⟩

theorem SameComputation.trans {s t u : State} (h : SameComputation s t) (g : SameComputation t u) :
    SameComputation s u :=
  ⟨g.phase.trans h.phase, g.mode.trans h.mode, g.errcode.trans h.errcode, g.dg.trans h.dg,
    g.ci.trans h.ci, g.co.trans h.co, g.segcnt.trans h.segcnt, g.seg0.trans h.seg0⟩

/-- The host side, BUSY, PEND and DIN are no part of the computation. -/
theorem SameComputation.of_host (s : State) {busy : Bool} {pend : Pending} {din : Word} {resetIn : Bool}
    {delay accepted : Nat} {bus : List BusAccess} {replies : List BusReply} :
    SameComputation s { s with
      busy := busy, pend := pend, din := din, resetIn := resetIn, delay := delay,
      accepted := accepted, bus := bus, replies := replies } :=
  ⟨rfl, rfl, rfl, rfl, rfl, rfl, rfl, rfl⟩

theorem SameComputation.issueAll (accesses : List BusAccess) (s : State) :
    SameComputation s (s.issueAll accesses) := by
  rw [issueAll_eq]; exact .of_host s

/-- R190, R275: after as many steps as the latency lasts the command is due and otherwise as it was,
whatever the host issues before each. -/
theorem runIssuing_latency : ∀ {inputs : List (List BusAccess)} {s : State}, s.resetIn = false →
    s.busy = true → s.delay = inputs.length → ∃ t, runIssuing inputs s = .next t ∧
      t.resetIn = false ∧ t.busy = true ∧ t.delay = 0 ∧ t.pend = s.pend ∧ SameComputation s t
  | [], s, hr, hb, hd => ⟨s, rfl, hr, hb, hd, rfl, .refl s⟩
  | accesses :: later, s, hr, hb, hd => by
    have hissue := issueAll_eq accesses s
    obtain ⟨u, hstep, hur, hub, hud, hup, husame⟩ := step_latency (s := s.issueAll accesses)
      (by rw [hissue]; exact hr) (by rw [hissue]; exact hb) (by rw [hissue]; exact hd)
    obtain ⟨t, hrun, htr, htb, htd, htp, htsame⟩ := runIssuing_latency hur hub hud
    refine ⟨t, (runIssuing_cons hstep).trans hrun, htr, htb, htd, ?_, ?_⟩
    · rw [htp, hup, hissue]
    · exact ((SameComputation.issueAll accesses s).trans husame).trans htsame

/-- A plain run is one in which the host issues nothing. -/
theorem runSteps_eq_runIssuing (n : Nat) (s : State) :
    runSteps n s = runIssuing (List.replicate n []) s := by
  induction n generalizing s with
  | zero => rfl
  | succ n ih =>
    obtain ⟨t, ht⟩ := step_answers s
    rw [runSteps_succ ht, ih, List.replicate_succ, runIssuing_cons (accesses := []) ht]

/-- Settles O18: the latency passes by `runIssuing_latency`, and the command is due then. -/
theorem pendingCommandExecutes : Obligations.PendingCommandExecutes := by
  refine fun s hr hb => ⟨fun inputs hlen => ?_, fun n => runSteps_eq_runIssuing n s⟩
  obtain ⟨t, hrun, htr, htb, htd, htp, hsame⟩ := runIssuing_latency hr hb hlen.symm
  refine ⟨t, hrun, htb, htd, htp, hsame.phase, hsame.mode, hsame.errcode, hsame.dg, hsame.ci, hsame.co,
    hsame.segcnt, hsame.seg0, fun last => ?_⟩
  obtain ⟨u, hu⟩ := executionStep_answers (t.issueAll last)
  obtain ⟨hub, -⟩ := executionStep_hostSide hu
  have hissue := issueAll_eq last t
  have hdue : step (t.issueAll last) = .next u :=
    (step_due (by rw [hissue]; exact htr) (by rw [hissue]; exact htb) (by rw [hissue]; exact htd)).trans hu
  exact ⟨u, hu, hub, (runIssuing_append hrun).trans (runIssuing_cons hdue)⟩

/-! ### The two INITs (R192, R193) -/

/-- R42: the STATUS an INIT leaves shows ACTIVE and the mode. -/
theorem statusWord_enterActive (m : Mode) (s : State) :
    statusWord { enterActive m s with busy := false } = (Phase.bits .active <<< 1) ||| (m.bits <<< 4) := by
  simp only [statusWord, enterActive_phase, enterActive_mode, enterActive_errcode]
  cases m <;> rfl

/-- Settles O23: the state `execMd4Init` writes out, field by field. -/
theorem md4InitStarts : Obligations.Md4InitStarts :=
  ⟨rfl, fun _ => ⟨_, rfl, rfl, rfl, rfl, rfl, rfl, rfl, rfl, rfl, statusWord_enterActive .md4 _,
    rfl, rfl, rfl, rfl, rfl, rfl, rfl, rfl⟩⟩

/-- Settles O24: the state `execEd2kInit` writes out, field by field. -/
theorem ed2kInitStarts : Obligations.Ed2kInitStarts :=
  ⟨rfl, fun _ => ⟨_, rfl, rfl, rfl, rfl, rfl, rfl, rfl, rfl, rfl, statusWord_enterActive .ed2k _,
    rfl, rfl, rfl, rfl, rfl, rfl, rfl, rfl⟩⟩

/-! ### ABSORB and FINAL past the guard (R191, R194, R196) -/

theorem exec_absorb_active {s : State} (hp : s.phase = .active) (nb : Nat) :
    exec (.absorb nb) s = .next (absorbBytes (absorbOperand nb s.pend.din) s).state := by
  simp only [exec, execAbsorb, requireActive_active hp, andThen_goOn]

theorem exec_final_active {s : State} (hp : s.phase = .active) :
    exec .final s =
      .next ((finalizeByMode s).andThen fun t => .goOn { t with phase := .done }).state := by
  simp only [exec, execFinal, requireActive_active hp, andThen_goOn]

/-- What ABSORB keeps, from every phase. -/
theorem exec_absorb_keeps {nb : Nat} {s t : State} (h : exec (.absorb nb) s = .next t) : Keeps s t := by
  cases h
  exact (requireActive_keeps s).andThen fun t _ => absorbBytes_keeps _ t

/-- R191, R232: outside ACTIVE neither goes past the guard. -/
theorem exec_guarded {i : Instr} (hi : i = .final ∨ ∃ nb, i = .absorb nb) {s t : State}
    (h : requireActive s = .ended t) : exec i s = .next t := by
  rcases hi with rfl | ⟨nb, rfl⟩
  · simp only [exec, execFinal, h, andThen_ended, state_ended]
  · simp only [exec, execAbsorb, h, andThen_ended, state_ended]

theorem requireActive_ended_of_ne {s : State} (hp : s.phase ≠ .active) :
    ∃ t, requireActive s = .ended t ∧ t.phase = .error := by
  cases h : s.phase with
  | active => exact absurd h hp
  | error => exact ⟨s, requireActive_error h, h⟩
  | idle => exact ⟨_, requireActive_raises (.inl h), rfl⟩
  | done => exact ⟨_, requireActive_raises (.inr h), rfl⟩

/-- What FINAL keeps, from every phase. -/
theorem exec_final_keeps {s t : State} (h : exec .final s = .next t) :
    SameHost s t ∧ (s.mode ≠ .ed2k → t.co = s.co ∧ t.segcnt = s.segcnt ∧ t.seg0 = s.seg0) := by
  by_cases hp : s.phase = .active
  · rw [exec_final_active hp] at h
    cases h
    have hmid := finalizeByMode_keeps s
    cases hf : finalizeByMode s with
    | ended t => rw [hf] at hmid; exact hmid
    | goOn t =>
      rw [hf] at hmid
      obtain ⟨hhost, houter⟩ := hmid
      exact ⟨hhost.trans ⟨rfl, rfl, rfl, rfl, rfl, rfl, rfl, rfl, rfl⟩, houter⟩
  · obtain ⟨u, hu, -⟩ := requireActive_ended_of_ne hp
    have hk := requireActive_keeps s
    rw [exec_guarded (.inl rfl) hu] at h
    rw [hu] at hk
    cases h
    exact ⟨hk.host, hk.outer⟩

/-- Settles O33: `Keeps` for ABSORB, which FINAL keeps too but for DG. -/
theorem absorbAndFinalFrame : Obligations.AbsorbAndFinalFrame := by
  intro s t i hi h
  have hkeeps : SameHost s t ∧ (i ≠ .final → t.dg = s.dg) ∧
      (s.mode ≠ .ed2k → t.co = s.co ∧ t.segcnt = s.segcnt ∧ t.seg0 = s.seg0) := by
    rcases hi with rfl | ⟨nb, rfl, -⟩
    · obtain ⟨hhost, houter⟩ := exec_final_keeps h
      exact ⟨hhost, fun hne => absurd rfl hne, houter⟩
    · obtain ⟨hhost, hdg, houter⟩ := exec_absorb_keeps h
      exact ⟨hhost, fun _ => hdg, houter⟩
  obtain ⟨⟨hmode, hbusy, hpend, hdin, hreset, hdelay, haccepted, hbus, hreplies⟩, hdg, houter⟩ := hkeeps
  exact ⟨hmode, hbusy, hpend, hdin, hreset, hdelay, haccepted, hbus, hreplies, hdg, houter⟩

/-- R197: in DONE the execution of any command but MD4_INIT, ED2K_INIT and CLEAR raises an error, and
that writes PHASE, ERRCODE and BUSY alone. -/
theorem executionStep_of_done {s t : State} (hp : s.phase = .done) (h : executionStep s = .next t)
    (hnot : ¬ (decode s.pend.cmd = .ok .md4Init ∨ decode s.pend.cmd = .ok .ed2kInit ∨
      decode s.pend.cmd = .ok .clear)) :
    ∃ code, t = { s with phase := .error, errcode := code, busy := false } := by
  rcases executionStep_cases h with ⟨i, u, hdec, hu, rfl⟩ | ⟨e, -, rfl⟩
  · have hi : i = .final ∨ ∃ nb, i = .absorb nb := by
      cases i with
      | final => exact .inl rfl
      | absorb nb => exact .inr ⟨nb, rfl⟩
      | md4Init => exact absurd (.inl hdec) hnot
      | ed2kInit => exact absurd (.inr (.inl hdec)) hnot
      | clear => exact absurd (.inr (.inr hdec)) hnot
    rw [exec_guarded hi (requireActive_raises (.inr hp))] at hu
    cases hu
    exact ⟨_, rfl⟩
  · rw [raiseError_of_ne (by simp [hp])]
    exact ⟨_, rfl⟩

/-- Settles O35: an execution step raises an error, and any other step leaves the computation. -/
theorem digestIsImmutableInDone : Obligations.DigestIsImmutableInDone := by
  intro s t hp hr hstep hnot
  by_cases hdue : s.busy = true ∧ s.delay = 0
  · obtain ⟨hb, hd⟩ := hdue
    rw [step_due hr hb hd] at hstep
    obtain ⟨code, rfl⟩ := executionStep_of_done hp hstep fun hcmd => hnot ⟨hb, hd, hcmd⟩
    exact ⟨rfl, rfl, .inr ⟨hb, hd, rfl⟩⟩
  · obtain ⟨hsame, -⟩ := step_keeps_computation hr hdue hstep
    exact ⟨hsame.ci, hsame.dg, .inl (hsame.phase.trans hp)⟩

/-! ### ABSORB in ACTIVE (R194, R195) -/

/-- R194 in MD4 mode, for bytes that CI has room for. -/
theorem exec_absorb_md4 {s : State} {nb : Nat} (hp : s.phase = .active) (hm : s.mode = .md4) {c : Context}
    (hc : (absorbOperand nb s.pend.din).foldlM md4Absorb s.ci = some c) :
    exec (.absorb nb) s = .next { s with ci := c } := by
  rw [exec_absorb_active hp, absorbBytes_md4 _ s c hm hc, state_goOn]

/-- Settles O27: within LEN_MAX the list of lanes is absorbed whole. -/
theorem absorbInMd4Mode : Obligations.AbsorbInMd4Mode := by
  intro s nb _ hle hp hm hlen
  have hbytes := absorbOperand_eq hle s.pend.din
  obtain ⟨c, hc, hclen⟩ := absorbList_isSome (absorbOperand nb s.pend.din) s.ci (by simpa [hbytes])
  refine ⟨c, hbytes ▸ hc, ?_, exec_absorb_md4 hp hm hc⟩
  simpa [hbytes] using hclen

/-- The bytes that fill the segment, and those after them: the closing goes between. -/
theorem absorbBytes_closes {s : State} {as bs : List Byte} {full outer next : Context} (hm : s.mode = .ed2k)
    (hfull : as.foldlM md4Absorb s.ci = some full) (hfill : s.ci.len.toNat + as.length = chunkSize)
    (hne : as ≠ []) (hseg : s.segcnt.toNat < segMax)
    (houter : (serialize (md4Finalize full).h).foldlM md4Absorb s.co = some outer)
    (hnext : bs.foldlM md4Absorb md4Init = some next) (hbs : bs.length < chunkSize) :
    absorbBytes (as ++ bs) s = .goOn { s with
      ci := next
      co := outer
      seg0 := if s.segcnt = 0 then (md4Finalize full).h else s.seg0
      segcnt := s.segcnt + 1 } := by
  have hclose := segmentClose_some (s := { s with ci := full }) (segcnt_ne hseg) houter
  rw [absorbBytes_append, absorbBytes_fills as s full hm hfull hfill hne, hclose, andThen_goOn]
  exact absorbBytes_ed2k bs { s with
    ci := md4Init
    co := outer
    seg0 := if s.segcnt = 0 then (md4Finalize full).h else s.seg0
    segcnt := s.segcnt + 1 } next hm hnext (by simpa using hbs)

/-- Settles O29: short of CHUNK_SIZE the bytes enter CI; else `absorbBytes_closes`, with the room that the
bounds leave in each context. -/
theorem absorbInEd2kMode : Obligations.AbsorbInEd2kMode := by
  intro s nb _ hle hp hm hlen hb bytes room
  have hexec := exec_absorb_active hp nb
  rw [absorbOperand_eq hle] at hexec
  have hlength : bytes.length = nb := by simp [bytes]
  refine ⟨fun hshort => ?_, fun hfills hseg => ?_⟩
  · obtain ⟨c, hc, hclen⟩ := absorbList_isSome bytes s.ci (by simp only [lenMax]; omega)
    refine ⟨c, hc, by rw [hclen, hlength], hexec.trans ?_⟩
    rw [absorbBytes_ed2k bytes s c hm hc (by simp only [chunkSize]; omega), state_goOn]
  · have htake : (bytes.take room).length = room := by rw [List.length_take]; omega
    have hdrop : (bytes.drop room).length = nb - room := by rw [List.length_drop, hlength]
    obtain ⟨full, hfull, hfulllen⟩ := absorbList_isSome (bytes.take room) s.ci
      (by simp only [lenMax]; omega)
    obtain ⟨outer, houter, houterlen⟩ := outer_room hb hm hseg (md4Finalize full).h
    obtain ⟨next, hnext, hnextlen⟩ := absorbList_isSome (bytes.drop room) md4Init
      (by rw [hdrop]; simp [lenMax]; omega)
    refine ⟨full, next, outer, hfull, by omega, houter, houterlen, hnext,
      by simpa [hdrop] using hnextlen, hexec.trans ?_⟩
    have hcloses := absorbBytes_closes hm hfull (by simp only [chunkSize]; omega)
      (List.ne_nil_of_length_pos (by omega)) hseg houter hnext (by simp only [chunkSize]; omega)
    rw [List.take_append_drop] at hcloses
    rw [hcloses, state_goOn]

/-! ### FINAL in ACTIVE (R196, R173) -/

theorem exec_final_md4 {s : State} (hp : s.phase = .active) (hm : s.mode = .md4) :
    exec .final s =
      .next { s with ci := md4Finalize s.ci, dg := (md4Finalize s.ci).h, phase := .done } := by
  rw [exec_final_active hp, finalizeByMode, hm]
  rfl

/-- Settles O31: `exec_final_md4`, and padding is not counted in LEN. -/
theorem finalInMd4Mode : Obligations.FinalInMd4Mode :=
  fun s hp hm => ⟨exec_final_md4 hp hm, md4Finalize_len s.ci⟩

/-- R164: one segment's digest is the result. -/
theorem ed2kSelect_one {s : State} (h : s.segcnt = 1) : ed2kSelect s = { s with dg := s.seg0 } := if_pos h

/-- R164: else the result is that of the second pass. -/
theorem ed2kSelect_ne {s : State} (h : s.segcnt ≠ 1) :
    ed2kSelect s = { s with co := md4Finalize s.co, dg := (md4Finalize s.co).h } := if_neg h

theorem finalizeByMode_ed2k {s : State} (hm : s.mode = .ed2k) : finalizeByMode s = ed2kFinalize s := by
  simp only [finalizeByMode, hm]

/-- R174: an empty segment is not closed. -/
theorem exec_final_empty {s : State} (hp : s.phase = .active) (hm : s.mode = .ed2k) (h : s.ci.len = 0) :
    exec .final s = .next { ed2kSelect s with phase := .done } := by
  rw [exec_final_active hp, finalizeByMode_ed2k hm, ed2kFinalize, if_pos h]
  rfl

/-- R173: a segment that is not empty is closed, and if that goes on, the digest is selected. -/
theorem exec_final_nonempty {s : State} (hp : s.phase = .active) (hm : s.mode = .ed2k)
    (h : s.ci.len ≠ 0) :
    exec .final s =
      .next ((segmentClose s).andThen fun t => .goOn { ed2kSelect t with phase := .done }).state := by
  rw [exec_final_active hp, finalizeByMode_ed2k hm, ed2kFinalize, if_neg h, andThen_assoc]
  rfl

/-- Settles O32: an empty segment leaves SEGCNT to `ed2kSelect`; closing one leaves SEGCNT + 1, which is 1
if it was the first, or raises. -/
theorem finalInEd2kMode : Obligations.FinalInEd2kMode := by
  intro s hp hm hb
  refine ⟨fun hempty hone => ?_, fun hempty hne => ?_, fun hlen hseg => ?_, fun hlen hseg => ?_⟩
  · rw [exec_final_empty hp hm hempty, ed2kSelect_one hone]
  · rw [exec_final_empty hp hm hempty, ed2kSelect_ne hne]
  · obtain ⟨outer, houter, -⟩ := outer_room hb hm hseg (md4Finalize s.ci).h
    have hexec := exec_final_nonempty hp hm hlen
    rw [segmentClose_some (segcnt_ne hseg) houter, andThen_goOn, state_goOn] at hexec
    refine ⟨outer, houter, fun hzero => ?_, fun hne => ?_⟩
    · rw [hexec, ed2kSelect_one (by simp [hzero])]
      simp [hzero]
    · have hsucc : s.segcnt + 1 ≠ 1 := fun h => hne (by simpa using h)
      rw [hexec, ed2kSelect_ne hsucc, if_neg hne]
  · rw [exec_final_nonempty hp hm hlen, segmentClose_full (segcnt_eq hseg), andThen_ended, state_ended,
      raiseError_of_ne (by simp [hp])]

/-! ### An ABSORB byte by byte (R199) -/

/-- A flow that goes on in ACTIVE, or has ended in ERROR. -/
def Flow.Guarded : Flow → Prop
  | .goOn s => s.phase = .active
  | .ended s => s.phase = .error

theorem Flow.Guarded.andThen {f : Flow} {k : State → Flow} (hf : f.Guarded)
    (hk : ∀ t, t.phase = .active → (k t).Guarded) : (f.andThen k).Guarded := by
  cases f with
  | goOn t => exact hk t hf
  | ended t => exact hf

theorem raiseError_phase (code : ErrCode) (s : State) : (raiseError code s).phase = .error := by
  rw [raiseError_eq]

theorem absorbInner_guarded (b : Byte) {s : State} (hp : s.phase = .active) :
    (absorbInner b s).Guarded := by
  unfold absorbInner
  split
  · exact hp
  · exact raiseError_phase _ _

theorem segmentClose_guarded {s : State} (hp : s.phase = .active) : (segmentClose s).Guarded := by
  rcases segmentClose_cases s with ⟨-, h⟩ | ⟨co, h⟩ | ⟨-, co, -, h⟩ <;> rw [h]
  · exact raiseError_phase _ _
  · exact raiseError_phase _ _
  · exact hp

theorem absorbByte_guarded (b : Byte) {s : State} (hp : s.phase = .active) : (absorbByte b s).Guarded := by
  unfold absorbByte
  split
  · exact absorbInner_guarded b hp
  · refine (absorbInner_guarded b hp).andThen fun t ht => ?_
    split
    · exact segmentClose_guarded ht
    · exact ht
  · exact hp

/-- The state after an ABSORB of one byte, in any phase. -/
def absorbOne (s : State) (b : Byte) : State := ((requireActive s).andThen (absorbByte b)).state

theorem absorbOne_active {s : State} (hp : s.phase = .active) (b : Byte) :
    absorbOne s b = (absorbByte b s).state := by
  rw [absorbOne, requireActive_active hp, andThen_goOn]

theorem absorbOne_ended {s t : State} (h : requireActive s = .ended t) (b : Byte) : absorbOne s b = t := by
  rw [absorbOne, h, andThen_ended, state_ended]

/-- R191: in ERROR no byte has an effect. -/
theorem foldl_absorbOne_error {s : State} (hp : s.phase = .error) (bs : List Byte) :
    bs.foldl absorbOne s = s := by
  induction bs with
  | nil => rfl
  | cons b bs ih => rw [List.foldl_cons, absorbOne_ended (requireActive_error hp), ih]

/-- From ACTIVE the byte loop is one ABSORB for each byte: it goes on in ACTIVE, and after a raise the
phase guard stops the bytes that the loop does not reach. -/
theorem absorbBytes_state : ∀ (bs : List Byte) {s : State}, s.phase = .active →
    (absorbBytes bs s).state = bs.foldl absorbOne s
  | [], _, _ => rfl
  | b :: bs, s, hp => by
    have hguard := absorbByte_guarded b hp
    rw [List.foldl_cons, absorbOne_active hp, absorbBytes]
    cases hf : absorbByte b s with
    | goOn t => rw [hf] at hguard; exact absorbBytes_state bs hguard
    | ended t => rw [hf] at hguard; exact (foldl_absorbOne_error hguard bs).symm

/-- R199: an ABSORB is the ABSORBs of its bytes, one by one, in every phase. -/
theorem exec_absorb_eq_foldl {nb : Nat} {s : State} (hne : absorbOperand nb s.pend.din ≠ []) :
    exec (.absorb nb) s = .next ((absorbOperand nb s.pend.din).foldl absorbOne s) := by
  by_cases hp : s.phase = .active
  · rw [exec_absorb_active hp, absorbBytes_state _ hp]
  · obtain ⟨t, ht, herr⟩ := requireActive_ended_of_ne hp
    obtain ⟨b, bs, hbs⟩ := List.exists_cons_of_ne_nil hne
    rw [exec_guarded (.inr ⟨nb, rfl⟩) ht, hbs, List.foldl_cons, absorbOne_ended ht,
      foldl_absorbOne_error herr]

/-! ### The bytes captured in PEND are those of the operand alone -/

section
variable (p : Pending) (din : Word)

theorem absorbInner_withInput (b : Byte) (s : State) :
    absorbInner b (s.withInput p din) = (absorbInner b s).map (State.withInput p din) := by
  have hci : (s.withInput p din).ci = s.ci := rfl
  unfold absorbInner
  rw [hci]
  cases md4Absorb s.ci b with
  | some c => rfl
  | none => exact raise_withInput p din .lengthOverflow s

theorem ed2kAbsorb_withInput (b : Byte) (s : State) :
    ed2kAbsorb b (s.withInput p din) = (ed2kAbsorb b s).map (State.withInput p din) := by
  unfold ed2kAbsorb
  rw [absorbInner_withInput]
  refine Flow.map_andThen _ fun t => ?_
  have hci : (t.withInput p din).ci = t.ci := rfl
  rw [hci]
  split
  · exact segmentClose_withInput p din t
  · rfl

theorem absorbByte_withInput (b : Byte) (s : State) :
    absorbByte b (s.withInput p din) = (absorbByte b s).map (State.withInput p din) := by
  have hmode : (s.withInput p din).mode = s.mode := rfl
  unfold absorbByte
  rw [hmode]
  split
  · exact absorbInner_withInput p din b s
  · exact ed2kAbsorb_withInput p din b s
  · rfl

theorem absorbOne_withInput (s : State) (b : Byte) :
    absorbOne (s.withInput p din) b = (absorbOne s b).withInput p din := by
  rw [absorbOne, requireActive_withInput, Flow.map_andThen _ (absorbByte_withInput p din b),
    Flow.map_state, absorbOne]

theorem foldl_absorbOne_withInput (bs : List Byte) (s : State) :
    bs.foldl absorbOne (s.withInput p din) = (bs.foldl absorbOne s).withInput p din := by
  induction bs generalizing s with
  | nil => rfl
  | cons b bs ih => rw [List.foldl_cons, absorbOne_withInput, ih, List.foldl_cons]

end

/-! ### Cuttings of a message (R199) -/

theorem absorbPieces_cons {p : List Byte} {ps : List (List Byte)} {s t : State}
    (h : exec (.absorb p.length) { s with pend := ⟨encode (.absorb p.length), dinOfBytes p⟩ } = .next t) :
    absorbPieces (p :: ps) s = absorbPieces ps t := by
  simp only [absorbPieces, h]

/-- The ABSORBs of the pieces are one ABSORB for each byte of the message, however it is cut; PEND holds
the last piece. -/
theorem absorbPieces_eq_foldl : ∀ {ps : List (List Byte)} (s : State), GoodPieces ps →
    ∃ p, absorbPieces ps s = .next ((ps.flatten.foldl absorbOne s).withInput p s.din)
  | [], s, _ => ⟨s.pend, rfl⟩
  | bs :: ps, s, hgood => by
    obtain ⟨hpos, hle⟩ := hgood bs List.mem_cons_self
    have hoperand := absorbOperand_dinOfBytes hle
    let p : Pending := ⟨encode (.absorb bs.length), dinOfBytes bs⟩
    have hexec : exec (.absorb bs.length) (s.withInput p s.din) =
        .next ((bs.foldl absorbOne s).withInput p s.din) := by
      have hbytes : absorbOperand bs.length (s.withInput p s.din).pend.din = bs := hoperand
      rw [exec_absorb_eq_foldl (hbytes.trans_ne (List.ne_nil_of_length_pos hpos)), hbytes,
        foldl_absorbOne_withInput]
    obtain ⟨q, hq⟩ := absorbPieces_eq_foldl ((bs.foldl absorbOne s).withInput p s.din)
      fun bs' h => hgood bs' (List.mem_cons_of_mem _ h)
    refine ⟨q, ?_⟩
    rw [absorbPieces_cons hexec, hq, foldl_absorbOne_withInput, List.flatten_cons, List.foldl_append]
    rfl

/-- Settles O51: both cuttings run the same ABSORBs of one byte, and FINAL does not read PEND. -/
theorem splitIndependence : Obligations.SplitIndependence := by
  intro s ps qs hps hqs hflat
  obtain ⟨p, hp⟩ := absorbPieces_eq_foldl s hps
  obtain ⟨q, hq⟩ := absorbPieces_eq_foldl s hqs
  rw [← hflat] at hq
  obtain ⟨t, ht, htp⟩ := execFinal_withInput p s.din (ps.flatten.foldl absorbOne s)
  obtain ⟨u, hu, huq⟩ := execFinal_withInput q s.din (ps.flatten.foldl absorbOne s)
  obtain rfl : t = u := Host.Outcome.next.inj (ht.symm.trans hu)
  exact ⟨_, _, hp, hq, rfl, _, _, htp, huq, rfl⟩

end Sys2Proof.Machine

namespace Sys2Proof.Machine

/-! ### Runs that answer accesses (R70, R190) -/

/-- Some run from `s` ends in `t`: it has answered with `rs`, and `rest` is still on the bus. -/
structure Serves (rs : List BusReply) (rest : List BusAccess) (s t : State) : Prop where
  run : ∃ n, runSteps n s = .next t
  resetIn : t.resetIn = false
  bus : t.bus = rest
  replies : t.replies = s.replies ++ rs

theorem Serves.refl {s : State} {rest : List BusAccess} (hr : s.resetIn = false) (hbus : s.bus = rest) :
    Serves [] rest s s :=
  ⟨⟨0, rfl⟩, hr, hbus, (List.append_nil _).symm⟩

theorem Serves.trans {rs rs' : List BusReply} {rest rest' : List BusAccess} {s t u : State}
    (h : Serves rs rest s t) (g : Serves rs' rest' t u) : Serves (rs ++ rs') rest' s u := by
  obtain ⟨m, hm⟩ := h.run
  obtain ⟨n, hn⟩ := g.run
  exact ⟨⟨m + n, (runSteps_add hm).trans hn⟩, g.resetIn, g.bus, by
    rw [g.replies, h.replies, List.append_assoc]⟩

theorem Serves.of_step {rs : List BusReply} {rest : List BusAccess} {s t : State} (h : step s = .next t)
    (hr : t.resetIn = false) (hbus : t.bus = rest) (hreplies : t.replies = s.replies ++ rs) :
    Serves rs rest s t :=
  ⟨⟨1, runSteps_succ h⟩, hr, hbus, hreplies⟩

/-- The execution step answers nothing and frees the engine. -/
theorem serves_executionStep {s : State} (hr : s.resetIn = false) (hb : s.busy = true) (hd : s.delay = 0) :
    ∃ u, executionStep s = .next u ∧ u.busy = false ∧ Serves [] s.bus s u := by
  obtain ⟨u, hu⟩ := executionStep_answers s
  obtain ⟨hfree, hreset, hbus, hreplies, -⟩ := executionStep_hostSide hu
  exact ⟨u, hu, hfree, .of_step ((step_due hr hb hd).trans hu) (hreset.trans hr) hbus
    (by simp [hreplies])⟩

/-- `u` is `s` with no command pending: the pending one, if there is one, has executed. -/
structure AfterPending (s u : State) : Prop where
  free : u.busy = false
  idle : s.busy = false → u = s
  executed : s.busy = true → executionStep { s with delay := 0 } = .next u

/-- R66, R272: an access that is held while BUSY = 1 waits until no command is pending. -/
theorem serves_pending {a : BusAccess} {rest : List BusAccess} {s : State} (hr : s.resetIn = false)
    (hbus : s.bus = a :: rest) (hheld : s.busy = true → isHeld a s = true) :
    ∃ u, Serves [] s.bus s u ∧ AfterPending s u := by
  rcases Bool.eq_false_or_eq_true s.busy with hb | hb
  · have hlatency : Serves [] s.bus s { s with delay := 0 } :=
      ⟨⟨s.delay, runSteps_latency_of_held hr hbus (hheld hb) rfl⟩, hr, rfl, (List.append_nil _).symm⟩
    obtain ⟨u, hu, hfree, hexec⟩ := serves_executionStep (s := { s with delay := 0 }) hr hb rfl
    exact ⟨u, hlatency.trans hexec, hfree, by simp [hb], fun _ => hu⟩
  · exact ⟨s, .refl hr rfl, hb, fun _ => rfl, by simp [hb]⟩

/-- A read of a free engine is answered at once. -/
theorem serves_read {s : State} {off : BitVec 7} {rest : List BusAccess} (hr : s.resetIn = false)
    (hb : s.busy = false) (hbus : s.bus = busRead off :: rest) (hal : off.toNat % 4 = 0) :
    Serves [.data (readReg (regAt off) s)] rest s
      { s with bus := rest, replies := s.replies ++ [.data (readReg (regAt off) s)] } :=
  .of_step ((step_free hr hb).trans (congrArg _ (busStep_read hbus hal (isHeld_of_not_busy _ hb))))
    hr rfl rfl

/-- R34, R66: a CMD write waits until no command is pending, in `u`; it is accepted then, with the DIN of
that state. -/
theorem serves_command {s : State} {i : Instr} {rest : List BusAccess} (hr : s.resetIn = false)
    (hbus : s.bus = commandAccess i :: rest) :
    ∃ u t, AfterPending s u ∧ Serves [.written] rest s t ∧ t.busy = true ∧ t.pend = ⟨encode i, u.din⟩ ∧
      SameComputation u t := by
  obtain ⟨-, hheld⟩ := busWrite_at (encode i) s rfl regAt_04
  obtain ⟨u, hserves, hu⟩ := serves_pending hr hbus fun hb => by rw [commandAccess, hheld, hb]; rfl
  have haccept := busStep_write (hserves.bus.trans hbus) rfl (isHeld_of_not_busy _ hu.free)
  have hstep := (step_free hserves.resetIn hu.free).trans (congrArg _ haccept)
  exact ⟨u, _, hu, hserves.trans (.of_step hstep hserves.resetIn rfl rfl), rfl, rfl, .of_host u⟩

/-! ### What holds once no command is pending -/

/-- A property of the computation, whatever the host side and the pending command are. -/
def OfComputation (P : State → Prop) : Prop := ∀ s t : State, SameComputation s t → P s → P t

/-- `P` holds if no command is pending; else the pending command's execution, from the same computation and
whatever DIN is by then, leads to `P` and leaves DIN. -/
structure Leads (P : State → Prop) (s : State) : Prop where
  free : s.busy = false → P s
  pending : s.busy = true → ∀ x u : State, SameComputation s x → x.pend = s.pend →
    executionStep x = .next u → P u ∧ u.din = x.din

theorem Leads.of_not_busy {P : State → Prop} {s : State} (hb : s.busy = false) (h : P s) : Leads P s :=
  ⟨fun _ => h, fun hb' => by simp [hb] at hb'⟩

theorem Leads.congr {P : State → Prop} (hP : OfComputation P) {s t : State} (h : Leads P s)
    (hsame : SameComputation s t) (hb : t.busy = s.busy) (hpend : t.pend = s.pend) : Leads P t :=
  ⟨fun hf => hP s t hsame (h.free (hb ▸ hf)),
    fun hp x u hx hxp => h.pending (hb ▸ hp) x u (hsame.trans hx) (hxp.trans hpend)⟩

theorem Leads.after {P : State → Prop} {s u : State} (h : Leads P s) (hu : AfterPending s u) :
    P u ∧ u.din = s.din := by
  cases hb : s.busy with
  | false => obtain rfl := hu.idle hb; exact ⟨h.free hb, rfl⟩
  | true => exact h.pending hb { s with delay := 0 } u (.of_host s) rfl (hu.executed hb)

/-- No command but CLEAR writes DIN. -/
theorem exec_din {i : Instr} (hi : i ≠ .clear) {s t : State} (h : exec i s = .next t) : t.din = s.din := by
  cases i with
  | md4Init => cases h; rfl
  | ed2kInit => cases h; rfl
  | absorb nb => exact (exec_absorb_keeps h).host.din
  | final => exact (exec_final_keeps h).1.din
  | clear => exact absurd rfl hi

/-- A pending command leads to what its meaning leads to. -/
theorem Leads.of_exec {P : State → Prop} (hP : OfComputation P) {i : Instr} (hwf : i.WellFormed)
    (hi : i ≠ .clear) {s : State} (hb : s.busy = true) (hcmd : s.pend.cmd = encode i)
    (hexec : ∀ x, SameComputation s x → x.pend = s.pend → ∃ y, exec i x = .next y ∧ P y) :
    Leads P s := by
  refine ⟨fun hf => by simp [hb] at hf, fun _ x u hx hxp hu => ?_⟩
  obtain ⟨y, hy, hPy⟩ := hexec x hx hxp
  have hdec : decode x.pend.cmd = .ok i := by rw [hxp, hcmd, decode_encode hwf]
  rw [executionStep_ok hdec hy] at hu
  cases hu
  have hdin := exec_din hi hy
  exact ⟨hP y _ (.of_host y) hPy, hdin⟩

/-- After the CMD write of `i` is answered, the pending `i` leads on from where the command before it
led. -/
theorem Leads.command {P Q : State → Prop} (hP : OfComputation P) (hQ : OfComputation Q) {i : Instr}
    (hwf : i.WellFormed) (hi : i ≠ .clear) {s : State} {rest : List BusAccess} (h : Leads P s)
    (hr : s.resetIn = false) (hbus : s.bus = commandAccess i :: rest)
    (hexec : ∀ x, P x → x.pend.din = s.din → ∃ y, exec i x = .next y ∧ Q y) :
    ∃ t, Serves [.written] rest s t ∧ Leads Q t := by
  obtain ⟨u, t, hu, hserves, hb, hpend, hsame⟩ := serves_command hr hbus
  obtain ⟨hPu, hdin⟩ := h.after hu
  refine ⟨t, hserves, .of_exec hQ hwf hi hb (by rw [hpend]) fun x hx hxp => ?_⟩
  exact hexec x (hP u x (hsame.trans hx) hPu) (by rw [hxp, hpend, ← hdin])

/-- R67: a DIN write that the bus takes up, which is never held. -/
theorem busStep_dinWrite {s : State} {v : Word} {rest : List BusAccess}
    (hbus : s.bus = busWrite 0x0C v :: rest) :
    busStep s = { s with bus := rest, din := v, replies := s.replies ++ [.written] } := by
  obtain ⟨-, hheld⟩ := busWrite_at v s rfl regAt_0C
  exact busStep_write hbus rfl (hheld.trans (Bool.and_false _))

/-- A step that takes up a DIN write. -/
theorem Leads.dinWrite_of_step {P : State → Prop} (hP : OfComputation P) {x u : State} {v : Word}
    {rest : List BusAccess} (hu : Leads P u) (hr : u.resetIn = false) (hbus : u.bus = busWrite 0x0C v :: rest)
    (hreplies : u.replies = x.replies) (hstep : step x = .next (busStep u)) :
    ∃ t, Serves [.written] rest x t ∧ t.din = v ∧ Leads P t := by
  rw [busStep_dinWrite hbus] at hstep
  exact ⟨_, .of_step hstep hr rfl (by rw [hreplies]), rfl, hu.congr hP (.of_host u) rfl rfl⟩

/-- A DIN write is answered while a command is pending, or after it; either way the same lies ahead. -/
theorem Leads.dinWrite {P : State → Prop} (hP : OfComputation P) {s : State} {v : Word}
    {rest : List BusAccess} (h : Leads P s) (hr : s.resetIn = false)
    (hbus : s.bus = busWrite 0x0C v :: rest) :
    ∃ t, Serves [.written] rest s t ∧ t.din = v ∧ Leads P t := by
  cases hb : s.busy with
  | false => exact h.dinWrite_of_step hP hr hbus rfl (step_free hr hb)
  | true =>
    cases hd : s.delay with
    | zero =>
      obtain ⟨u, hu, hfree, hexec⟩ := serves_executionStep hr hb hd
      obtain ⟨hPu, -⟩ := h.pending hb s u (.refl s) rfl hu
      obtain ⟨t, ht, hdin, hleads⟩ := (Leads.of_not_busy hfree hPu).dinWrite_of_step hP hexec.resetIn
        (hexec.bus.trans hbus) rfl (step_free hexec.resetIn hfree)
      exact ⟨t, hexec.trans ht, hdin, hleads⟩
    | succ d =>
      have hleads : Leads P { s with delay := d } := h.congr hP (.of_host s) rfl rfl
      exact hleads.dinWrite_of_step hP hr hbus rfl (step_waits hr hb hd)

/-! ### Digest programs (R98, R200, R201) -/

/-- The computation has ended in a digest (R196). -/
structure HasDigest (d : List Byte) (s : State) : Prop where
  phase : s.phase = .done
  errcode : s.errcode = .none
  dg : serialize s.dg = d

theorem HasDigest.ofComputation (d : List Byte) : OfComputation (HasDigest d) :=
  fun _ _ h hs => ⟨h.phase.trans hs.phase, h.errcode.trans hs.errcode, h.dg ▸ hs.dg⟩

/-- What a digest program needs of the meanings of its commands: `Inv m` holds of the computation that has
absorbed `m`, up to the length `bound`. -/
structure Streams (init : Instr) (bound : Nat) (digest : List Byte → List Byte)
    (Inv : List Byte → State → Prop) : Prop where
  ofComputation : ∀ m, OfComputation (Inv m)
  starts : ∀ s, ∃ t, exec init s = .next t ∧ Inv [] t
  absorbs : ∀ {m p : List Byte} {s : State}, 1 ≤ p.length → p.length ≤ 4 → (m ++ p).length ≤ bound →
    Inv m s → s.pend.din = dinOfBytes p → ∃ t, exec (.absorb p.length) s = .next t ∧ Inv (m ++ p) t
  ends : ∀ {m : List Byte} {s : State}, m.length ≤ bound → Inv m s →
    ∃ t, exec .final s = .next t ∧ HasDigest (digest m) t

section
variable {init : Instr} {bound : Nat} {digest : List Byte → List Byte} {Inv : List Byte → State → Prop}

/-- R98: a PUSH is answered with two writes and leads to the message with its bytes. -/
theorem Streams.push (h : Streams init bound digest Inv) {m p : List Byte} {s : State}
    {rest : List BusAccess} (hpos : 1 ≤ p.length) (hle : p.length ≤ 4) (hbound : (m ++ p).length ≤ bound)
    (hleads : Leads (Inv m) s) (hr : s.resetIn = false) (hbus : s.bus = push p ++ rest) :
    ∃ t, Serves [.written, .written] rest s t ∧ Leads (Inv (m ++ p)) t := by
  obtain ⟨t, ht, hdin, htleads⟩ := hleads.dinWrite (h.ofComputation m) hr hbus
  obtain ⟨u, hu, huleads⟩ := htleads.command (h.ofComputation m) (h.ofComputation (m ++ p))
    (i := .absorb p.length) ⟨hpos, hle⟩ nofun ht.resetIn ht.bus fun x hx hxdin =>
      h.absorbs hpos hle hbound hx (hxdin.trans hdin)
  exact ⟨u, ht.trans hu, huleads⟩

theorem Streams.pushes (h : Streams init bound digest Inv) {rest : List BusAccess} :
    ∀ {ps : List (List Byte)} {m : List Byte} {s : State}, GoodPieces ps →
      (m ++ ps.flatten).length ≤ bound → Leads (Inv m) s → s.resetIn = false →
      s.bus = (ps.map Machine.push).flatten ++ rest →
      ∃ t, Serves (List.replicate (2 * ps.length) .written) rest s t ∧ Leads (Inv (m ++ ps.flatten)) t
  | [], m, s, _, _, hleads, hr, hbus => ⟨s, .refl hr hbus, by simpa using hleads⟩
  | p :: ps, m, s, hgood, hbound, hleads, hr, hbus => by
    obtain ⟨hpos, hle⟩ := hgood p List.mem_cons_self
    have happ : m ++ (p :: ps).flatten = m ++ p ++ ps.flatten := by simp
    rw [happ] at hbound ⊢
    obtain ⟨t, ht, htleads⟩ := h.push hpos hle (by simp at hbound ⊢; omega) hleads hr
      (rest := (ps.map Machine.push).flatten ++ rest) (by simp [hbus])
    obtain ⟨u, hu, huleads⟩ := h.pushes (fun q hq => hgood q (List.mem_cons_of_mem _ hq)) hbound htleads
      ht.resetIn ht.bus
    exact ⟨u, ht.trans hu, huleads⟩

/-- The first command: whatever is pending when it is issued, it starts anew. -/
theorem Streams.start (h : Streams init bound digest Inv) (hwf : init.WellFormed) (hi : init ≠ .clear)
    {s : State} {rest : List BusAccess} (hr : s.resetIn = false)
    (hbus : s.bus = commandAccess init :: rest) :
    ∃ t, Serves [.written] rest s t ∧ Leads (Inv []) t := by
  obtain ⟨u, t, -, hserves, hb, hpend, -⟩ := serves_command hr hbus
  exact ⟨t, hserves, .of_exec (h.ofComputation []) hwf hi hb (by rw [hpend]) fun x _ _ => h.starts x⟩

end

/-- The offset of DIGESTk (R44). -/
def digestOffset (k : Fin 4) : BitVec 7 := BitVec.ofNat 7 (0x10 + 4 * k.val)

/-- In DONE a free engine answers reads of DIGESTk with words of DG (R44). -/
theorem serves_digests : ∀ {ks : List (Fin 4)} {s : State}, s.resetIn = false → s.busy = false →
    s.phase = .done → s.bus = ks.map (fun k => busRead (digestOffset k)) →
    ∃ t, Serves (ks.map fun k => .data s.dg[k]) [] s t ∧ t.busy = false ∧ SameComputation s t
  | [], s, hr, hb, _, hbus => ⟨s, .refl hr hbus, hb, .refl s⟩
  | k :: ks, s, hr, hb, hp, hbus => by
    have hoff : (digestOffset k).toNat = 0x10 + 4 * k.val := by
      rw [digestOffset, BitVec.toNat_ofNat, Nat.mod_eq_of_lt (by omega)]
    have hword : readReg (regAt (digestOffset k)) s = s.dg[k] := by rw [regAt_digest hoff]; exact if_pos hp
    have hread := serves_read hr hb hbus (by omega)
    rw [hword] at hread
    obtain ⟨t, ht, hfree, hsame⟩ := serves_digests hread.resetIn hb hp hread.bus
    exact ⟨t, hread.trans ht, hfree, .trans (.of_host s) hsame⟩

/-- R98: DIGEST waits until FINAL has executed and reads the four words of DG. -/
theorem serves_digestReads {d : List Byte} {s : State} (h : Leads (HasDigest d) s) (hr : s.resetIn = false)
    (hbus : s.bus = digestReads) :
    ∃ t, Serves [.data t.dg[0], .data t.dg[1], .data t.dg[2], .data t.dg[3]] [] s t ∧ t.busy = false ∧
      HasDigest d t := by
  obtain ⟨-, hheld⟩ := busRead_at s (off := 0x10) rfl regAt_10
  obtain ⟨u, hserves, hu⟩ := serves_pending hr hbus fun hb => by rw [hheld, hb]; rfl
  obtain ⟨hdigest, -⟩ := h.after hu
  obtain ⟨t, ht, hfree, hsame⟩ := serves_digests (ks := [0, 1, 2, 3]) hserves.resetIn hu.free
    hdigest.phase (hserves.bus.trans hbus)
  rw [← hsame.dg] at ht
  exact ⟨t, hserves.trans ht, hfree, HasDigest.ofComputation d u t hsame hdigest⟩

/-- R200, R201: the whole program, from any state, whatever is pending and whatever the latencies. -/
theorem Streams.computes_digest {init : Instr} {bound : Nat} {digest : List Byte → List Byte}
    {Inv : List Byte → State → Prop} (h : Streams init bound digest Inv) (hwf : init.WellFormed)
    (hi : init ≠ .clear) {s : State} {ps : List (List Byte)} (hr : s.resetIn = false)
    (hgood : GoodPieces ps) (hbound : ps.flatten.length ≤ bound) :
    ∃ n t, runSteps n { s with bus := digestProgram init ps } = .next t ∧
      t.bus = [] ∧ t.busy = false ∧ t.phase = .done ∧ t.errcode = .none ∧
      serialize t.dg = digest ps.flatten ∧
      t.replies = s.replies ++ List.replicate (2 * ps.length + 2) BusReply.written ++
        [BusReply.data t.dg[0], BusReply.data t.dg[1], BusReply.data t.dg[2], BusReply.data t.dg[3]] := by
  obtain ⟨t0, hstart, hleads0⟩ := h.start hwf hi (s := { s with bus := digestProgram init ps }) hr rfl
  obtain ⟨t1, hpushes, hleads1⟩ := h.pushes hgood hbound hleads0 hstart.resetIn hstart.bus
  obtain ⟨t2, hfinal, hleads2⟩ := hleads1.command (h.ofComputation _) (HasDigest.ofComputation _)
    (i := .final) trivial nofun hpushes.resetIn hpushes.bus fun x hx _ => h.ends hbound hx
  obtain ⟨t, hreads, hfree, hphase, herr, hdg⟩ := serves_digestReads hleads2 hfinal.resetIn hfinal.bus
  obtain ⟨⟨n, hrun⟩, -, hbus, hreplies⟩ := ((hstart.trans hpushes).trans hfinal).trans hreads
  have hwritten : [BusReply.written] ++ List.replicate (2 * ps.length) BusReply.written ++
      [BusReply.written] = List.replicate (2 * ps.length + 2) BusReply.written := by
    rw [List.replicate_succ', List.replicate_succ, List.singleton_append]
  exact ⟨n, t, hrun, hbus, hfree, hphase, herr, hdg, by rw [hreplies, hwritten, List.append_assoc]⟩

/-! ### The MD4 program (R200) -/

/-- A message absorbed from Md4Init has its length in LEN. -/
theorem absorbed_len {m : List Byte} {c : Context} (h : m.foldlM md4Absorb md4Init = some c)
    (hm : m.length ≤ lenMax) : c.len.toNat = m.length := by
  obtain ⟨d, hd, hlen, -⟩ := md4Init_absorbs hm
  obtain rfl : c = d := Option.some.inj (h.symm.trans hd)
  exact hlen

/-- R136 for the context at hand. -/
theorem absorbed_digest {m : List Byte} {c : Context} (h : m.foldlM md4Absorb md4Init = some c)
    (hm : m.length ≤ lenMax) : serialize (md4Finalize c).h = md4Digest m := by
  obtain ⟨d, hd, hdigest⟩ := streamingMd4IsMd4Digest m hm
  obtain rfl : c = d := Option.some.inj (h.symm.trans hd)
  exact hdigest

theorem foldlM_absorb_append {m p : List Byte} {c d e : Context} (hc : m.foldlM md4Absorb c = some d)
    (hd : p.foldlM md4Absorb d = some e) : (m ++ p).foldlM md4Absorb c = some e := by
  simp [List.foldlM_append, hc, hd]

/-- The bytes of an ABSORB lane by lane are those that were pushed (R94, R98). -/
theorem lanes_dinOfBytes {p : List Byte} (h : p.length ≤ 4) :
    ((List.range p.length).map fun t => (dinOfBytes p).extractLsb' (8 * t) 8) = p := by
  rw [← absorbOperand_eq h, absorbOperand_dinOfBytes h]

/-- In MD4 mode CI has absorbed `m`. -/
structure Md4Streams (m : List Byte) (s : State) : Prop where
  phase : s.phase = .active
  mode : s.mode = .md4
  errcode : s.errcode = .none
  ci : m.foldlM md4Absorb md4Init = some s.ci

theorem md4Streams : Streams .md4Init lenMax md4Digest Md4Streams where
  ofComputation m s t h hs :=
    ⟨h.phase.trans hs.phase, h.mode.trans hs.mode, h.errcode.trans hs.errcode, h.ci ▸ hs.ci⟩
  starts s := ⟨_, rfl, rfl, rfl, rfl, rfl⟩
  absorbs {m p s} hpos hle hbound hs hdin := by
    have hlen := absorbed_len hs.ci (by simp at hbound; omega)
    obtain ⟨c, hc, -, hexec⟩ := absorbInMd4Mode s p.length hpos hle hs.phase hs.mode
      (by rw [hlen]; simpa using hbound)
    rw [hdin, lanes_dinOfBytes hle] at hc
    exact ⟨_, hexec, hs.phase, hs.mode, hs.errcode, foldlM_absorb_append hs.ci hc⟩
  ends {m s} hbound hs :=
    ⟨_, exec_final_md4 hs.phase hs.mode, rfl, hs.errcode, absorbed_digest hs.ci hbound⟩

/-- Settles O52: the program, for what MD4_INIT, ABSORB and FINAL do in MD4 mode. -/
theorem md4ProgramComputesDigest : Obligations.Md4ProgramComputesDigest :=
  fun _ _ hr _ hgood hbound => md4Streams.computes_digest trivial nofun hr hgood hbound

end Sys2Proof.Machine

namespace Sys2Proof.Machine

/-! ### The ED2K program (R201, R172) -/

/-- Segments of CHUNK_SIZE bytes (R161). -/
def FullSegments (segs : List (List Byte)) : Prop := ∀ g ∈ segs, g.length = chunkSize

theorem FullSegments.flatten_length {segs : List (List Byte)} (h : FullSegments segs) :
    segs.flatten.length = segs.length * chunkSize := by
  induction segs with
  | nil => simp
  | cons g gs ih =>
    obtain ⟨hg, hgs⟩ := List.forall_mem_cons.1 h
    rw [List.flatten_cons, List.length_append, hg, ih hgs, List.length_cons, Nat.succ_mul, Nat.add_comm]

/-- The digests of closed segments, in order: what has entered CO (R170). -/
def closedDigests (segs : List (List Byte)) : List Byte := (segs.map md4Digest).flatten

theorem closedDigests_nil : closedDigests [] = [] := rfl

theorem closedDigests_cons (g : List Byte) (segs : List (List Byte)) :
    closedDigests (g :: segs) = md4Digest g ++ closedDigests segs := by
  simp [closedDigests]

theorem closedDigests_concat (segs : List (List Byte)) (g : List Byte) :
    closedDigests (segs ++ [g]) = closedDigests segs ++ md4Digest g := by
  simp [closedDigests]

@[simp] theorem md4Digest_length (m : List Byte) : (md4Digest m).length = 16 := serialize_length _

theorem closedDigests_length (segs : List (List Byte)) :
    (closedDigests segs).length = 16 * segs.length := by
  induction segs with
  | nil => rfl
  | cons g gs ih =>
    rw [closedDigests_cons, List.length_append, md4Digest_length, ih, List.length_cons]
    omega

/-- R163: full segments come first in the intermediate buffer. -/
theorem segmentDigests_append {segs : List (List Byte)} (h : FullSegments segs) (part : List Byte) :
    segmentDigests (segs.flatten ++ part) = closedDigests segs ++ segmentDigests part := by
  induction segs with
  | nil => rw [List.flatten_nil, List.nil_append, closedDigests_nil, List.nil_append]
  | cons g gs ih =>
    obtain ⟨hg, hgs⟩ := List.forall_mem_cons.1 h
    have hpos : 0 < (g ++ (gs.flatten ++ part)).length := by
      rw [List.length_append, hg, chunkSize]; omega
    rw [List.flatten_cons, List.append_assoc, segmentDigests_of_pos hpos, List.take_left' hg,
      List.drop_left' hg, ih hgs, closedDigests_cons, List.append_assoc]

/-- The engine has closed the segments `segs`, and CI holds the segment `part`, which is not full. -/
structure Chunked (segs : List (List Byte)) (part : List Byte) (s : State) : Prop where
  full : FullSegments segs
  short : part.length < chunkSize
  segcnt : s.segcnt.toNat = segs.length
  ci : part.foldlM md4Absorb md4Init = some s.ci
  co : (closedDigests segs).foldlM md4Absorb md4Init = some s.co
  seg0 : ∀ g, segs.head? = some g → serialize s.seg0 = md4Digest g

/-- In ED2K mode, within the bounds, `m` has been absorbed, cut into segments. -/
structure Ed2kStreams (m : List Byte) (s : State) : Prop where
  phase : s.phase = .active
  mode : s.mode = .ed2k
  errcode : s.errcode = .none
  bounded : s.Bounded
  cut : ∃ segs part, m = segs.flatten ++ part ∧ Chunked segs part s

theorem Ed2kStreams.ofComputation (m : List Byte) : OfComputation (Ed2kStreams m) := by
  rintro s t h ⟨hp, hm, he, hb, segs, part, hcut, hfull, hshort, hseg, hci, hco, hseg0⟩
  refine ⟨h.phase.trans hp, h.mode.trans hm, h.errcode.trans he, h.bounded hb, segs, part, hcut, hfull,
    hshort, ?_, ?_, ?_, ?_⟩
  · rwa [h.segcnt]
  · rwa [h.ci]
  · rwa [h.co]
  · rwa [h.seg0]

theorem Chunked.ci_len {segs : List (List Byte)} {part : List Byte} {s : State} (h : Chunked segs part s) :
    s.ci.len.toNat = part.length :=
  absorbed_len h.ci (by have := h.short; simp only [chunkSize, lenMax] at *; omega)

/-- R171: bytes that do not fill the segment lengthen it. -/
theorem Chunked.absorb {segs : List (List Byte)} {part p : List Byte} {s : State} {c : Context}
    (h : Chunked segs part s) (hp : p.length < chunkSize - part.length)
    (hc : p.foldlM md4Absorb s.ci = some c) : Chunked segs (part ++ p) { s with ci := c } :=
  ⟨h.full, by rw [List.length_append]; omega, h.segcnt, foldlM_absorb_append h.ci hc, h.co, h.seg0⟩

/-- R170, R171: the bytes `a` fill the segment, which is closed, and `b` begin the next. -/
theorem Chunked.close {segs : List (List Byte)} {part a b : List Byte} {s : State}
    {full outer next : Context} (h : Chunked segs part s) (hfill : part.length + a.length = chunkSize)
    (hb : b.length < chunkSize) (hseg : segs.length < segMax)
    (hfull : a.foldlM md4Absorb s.ci = some full)
    (houter : (serialize (md4Finalize full).h).foldlM md4Absorb s.co = some outer)
    (hnext : b.foldlM md4Absorb md4Init = some next) :
    Chunked (segs ++ [part ++ a]) b { s with
      ci := next
      co := outer
      seg0 := if s.segcnt = 0 then (md4Finalize full).h else s.seg0
      segcnt := s.segcnt + 1 } := by
  have hdigest : serialize (md4Finalize full).h = md4Digest (part ++ a) :=
    absorbed_digest (foldlM_absorb_append h.ci hfull) (by
      rw [List.length_append, hfill]; decide)
  have hsegcnt := h.segcnt
  refine ⟨?_, hb, ?_, hnext, ?_, ?_⟩
  · intro g hg
    rcases List.mem_append.1 hg with hg | hg
    · exact h.full g hg
    · rw [List.mem_singleton.1 hg, List.length_append, hfill]
  · have hlt : s.segcnt.toNat + 1 < 2 ^ 64 := by simp only [segMax] at hseg; omega
    simp only [List.length_append, List.length_singleton, ← hsegcnt]
    exact BitVec.toNat_add_of_lt hlt
  · rw [closedDigests_concat, ← hdigest]
    exact foldlM_absorb_append h.co houter
  · intro g hg
    cases segs with
    | nil =>
      have hzero : s.segcnt = 0 := BitVec.eq_of_toNat_eq hsegcnt
      obtain rfl : part ++ a = g := Option.some.inj hg
      rw [if_pos hzero, hdigest]
    | cons g' gs =>
      have hne : s.segcnt ≠ 0 := fun e => by simp [e] at hsegcnt
      rw [if_neg hne]
      exact h.seg0 g hg

/-- R170's bound on the segments from the bound on the message: one more is full. -/
theorem segs_lt_segMax {segs : List (List Byte)} {rest : List Byte} (h : FullSegments segs)
    (hrest : 0 < rest.length) (hbound : (segs.flatten ++ rest).length ≤ segMax * chunkSize) :
    segs.length < segMax := by
  rw [List.length_append, h.flatten_length] at hbound
  exact Nat.lt_of_mul_lt_mul_right (a := chunkSize) (by omega)

theorem Ed2kStreams.absorbs {m p : List Byte} {s : State} (hpos : 1 ≤ p.length) (hle : p.length ≤ 4)
    (hbound : (m ++ p).length ≤ segMax * chunkSize) (hs : Ed2kStreams m s)
    (hdin : s.pend.din = dinOfBytes p) :
    ∃ t, exec (.absorb p.length) s = .next t ∧ Ed2kStreams (m ++ p) t := by
  obtain ⟨hp, hm, he, hb, segs, part, rfl, hchunk⟩ := hs
  have hlen := hchunk.ci_len
  have hshort := hchunk.short
  obtain ⟨hstays, hcloses⟩ := absorbInEd2kMode s p.length hpos hle hp hm (by rw [hlen]; exact hshort) hb
  rw [hdin, lanes_dinOfBytes hle, hlen] at hstays hcloses
  rw [List.append_assoc] at hbound ⊢
  rcases Nat.lt_or_ge p.length (9728000 - part.length) with hroom | hroom
  · obtain ⟨c, hc, -, hexec⟩ := hstays hroom
    have hbt := exec_bounded hb hexec
    exact ⟨_, hexec, hp, hm, he, hbt, segs, part ++ p, rfl, hchunk.absorb hroom hc⟩
  · have hseg := segs_lt_segMax hchunk.full (by rw [List.length_append]; omega) hbound
    obtain ⟨full, next, outer, hfull, -, houter, -, hnext, -, hexec⟩ :=
      hcloses hroom (by rw [hchunk.segcnt]; exact hseg)
    have hbt := exec_bounded hb hexec
    have hnew := hchunk.close (by rw [List.length_take]; simp only [chunkSize] at *; omega)
      (by rw [List.length_drop]; simp only [chunkSize] at *; omega) hseg hfull houter hnext
    refine ⟨_, hexec, hp, hm, he, hbt, _, _, ?_, hnew⟩
    simp

/-- R164: all but the messages of one segment take a second pass over the digests. -/
theorem ed2kDigest_second {m : List Byte} (h : m.length = 0 ∨ chunkSize < m.length) :
    ed2kDigest m = md4Digest (segmentDigests m) :=
  if_neg (by omega)

/-- The digests of a message within R170's bound fit one context. -/
theorem closedDigests_le_lenMax {segs : List (List Byte)} (h : segs.length ≤ segMax) :
    (closedDigests segs).length ≤ lenMax := by
  rw [closedDigests_length]
  simp only [segMax, lenMax] at *
  omega

/-- R174: FINAL with an empty segment. -/
theorem Chunked.final_empty {segs : List (List Byte)} {s : State} (h : Chunked segs [] s)
    (hp : s.phase = .active) (hm : s.mode = .ed2k) (he : s.errcode = .none) (hb : s.Bounded) :
    ∃ t, exec .final s = .next t ∧ HasDigest (ed2kDigest segs.flatten) t := by
  have hlen : s.ci.len = 0 := BitVec.eq_of_toNat_eq h.ci_len
  have hflat := h.full.flatten_length
  obtain ⟨hone, hother, -⟩ := finalInEd2kMode s hp hm hb
  by_cases hsegs : segs.length = 1
  · have hseg : s.segcnt = 1 := BitVec.eq_of_toNat_eq (h.segcnt.trans hsegs)
    obtain ⟨g, rfl⟩ := List.length_eq_one_iff.1 hsegs
    refine ⟨_, hone hlen hseg, rfl, he, ?_⟩
    have hg : [g].flatten.length = chunkSize := by rw [hflat, hsegs, Nat.one_mul]
    rw [ed2kDigest_single (by rw [hg]; decide) hg.le, List.flatten_singleton]
    exact h.seg0 g rfl
  · have hseg : s.segcnt ≠ 1 := fun e => hsegs (h.segcnt.symm.trans (by rw [e]; rfl))
    refine ⟨_, hother hlen hseg, rfl, he, ?_⟩
    have hsecond : segs.flatten.length = 0 ∨ chunkSize < segs.flatten.length := by
      rw [hflat, chunkSize]; omega
    have hbuf := segmentDigests_append h.full []
    rw [List.append_nil, segmentDigests_nil, List.append_nil] at hbuf
    rw [ed2kDigest_second hsecond, hbuf]
    exact absorbed_digest h.co (closedDigests_le_lenMax (h.segcnt ▸ hb.2.1))

/-- R173: FINAL with a segment that is not empty, below the last that R170 allows. -/
theorem Chunked.final_nonempty {segs : List (List Byte)} {part : List Byte} {s : State}
    (h : Chunked segs part s) (hpart : 0 < part.length) (hsegs : segs.length < segMax)
    (hp : s.phase = .active) (hm : s.mode = .ed2k) (he : s.errcode = .none) (hb : s.Bounded) :
    ∃ t, exec .final s = .next t ∧ HasDigest (ed2kDigest (segs.flatten ++ part)) t := by
  have hlen : s.ci.len ≠ 0 := fun e => by
    have hpartlen := h.ci_len
    simp [e] at hpartlen
    omega
  have hshort := h.short
  have hdigest : serialize (md4Finalize s.ci).h = md4Digest part :=
    absorbed_digest h.ci (by simp only [chunkSize, lenMax] at *; omega)
  obtain ⟨-, -, hcloses, -⟩ := finalInEd2kMode s hp hm hb
  obtain ⟨outer, houter, hfirst, hlater⟩ := hcloses hlen (by rw [h.segcnt]; exact hsegs)
  cases segs with
  | nil =>
    have hseg : s.segcnt = 0 := BitVec.eq_of_toNat_eq h.segcnt
    refine ⟨_, hfirst hseg, rfl, he, ?_⟩
    rw [List.flatten_nil, List.nil_append, ed2kDigest_single hpart hshort.le]
    exact hdigest
  | cons g gs =>
    have hsegcnt := h.segcnt
    have hseg : s.segcnt ≠ 0 := fun e => by simp [e] at hsegcnt
    refine ⟨_, hlater hseg, rfl, he, ?_⟩
    have hlong : chunkSize < ((g :: gs).flatten ++ part).length := by
      rw [List.length_append, h.full.flatten_length, List.length_cons, Nat.succ_mul]; omega
    have hall := foldlM_absorb_append h.co houter
    rw [hdigest] at hall
    rw [ed2kDigest_second (.inr hlong), segmentDigests_append h.full,
      segmentDigests_single hpart hshort.le]
    refine absorbed_digest hall ?_
    rw [← closedDigests_concat]
    exact closedDigests_le_lenMax (by simpa using hsegs)

theorem Ed2kStreams.ends {m : List Byte} {s : State} (hbound : m.length ≤ segMax * chunkSize)
    (hs : Ed2kStreams m s) : ∃ t, exec .final s = .next t ∧ HasDigest (ed2kDigest m) t := by
  obtain ⟨hp, hm, he, hb, segs, part, rfl, hchunk⟩ := hs
  rcases Nat.eq_zero_or_pos part.length with hpart | hpart
  · obtain rfl := List.eq_nil_of_length_eq_zero hpart
    rw [List.append_nil]
    exact hchunk.final_empty hp hm he hb
  · exact hchunk.final_nonempty hpart (segs_lt_segMax hchunk.full hpart hbound) hp hm he hb

theorem ed2kStreams : Streams .ed2kInit (segMax * chunkSize) ed2kDigest Ed2kStreams where
  ofComputation := Ed2kStreams.ofComputation
  starts s := by
    refine ⟨_, rfl, rfl, rfl, rfl, ⟨Nat.zero_le _, Nat.zero_le _, fun _ => rfl⟩, [], [], rfl, ?_⟩
    exact ⟨nofun, by decide, rfl, rfl, rfl, nofun⟩
  absorbs := Ed2kStreams.absorbs
  ends := Ed2kStreams.ends

/-- Settles O53: the program, for what ED2K_INIT, ABSORB and FINAL do in ED2K mode. -/
theorem ed2kProgramComputesDigest : Obligations.Ed2kProgramComputesDigest :=
  fun _ _ hr _ hgood hbound => ed2kStreams.computes_digest trivial nofun hr hgood hbound

end Sys2Proof.Machine

namespace Sys2Proof

/-! ### The illegal words (R231, R96) -/

/-- R231: a word that violates one of R92's three conditions does not decode. -/
theorem decode_error_of_fields {c : Word}
    (h : opField c ∉ [0x1, 0x2, 0x3, 0x4, (0x5 : BitVec 4)] ∨ rsvField c ≠ 0 ∨
      (nbm1Field c ≠ 0 ∧ opField c ≠ 0x3)) : ∃ e, decode c = .error e := by
  cases hdec : decode c with
  | error e => exact ⟨e, rfl⟩
  | ok i =>
    obtain ⟨hop, hrsv, hnbm1⟩ := (legalWord_iff_fields c).1 ((legalWord_iff_decode c).2 ⟨i, hdec⟩)
    rcases h with h | h | ⟨hnz, hnot⟩
    · exact absurd hop h
    · exact absurd hrsv h
    · exact (hnbm1.elim hnot hnz).elim

end Sys2Proof

namespace Sys2Proof.Machine

/-- Settles O14: the word does not decode, so the step is error entry. -/
theorem illegalWordRaises : Obligations.IllegalWordRaises := by
  intro s hr hb hd hillegal
  obtain ⟨e, hdec⟩ := decode_error_of_fields hillegal
  rw [step_due hr hb hd, executionStep_error hdec, raiseError_eq]

/-! ### The phase guard (R191, R232) -/

/-- R44: DIGEST reads 0 outside DONE. -/
theorem readReg_digest_of_ne {s : State} (hp : s.phase ≠ .done) (k : Fin 4) : readReg (.digest k) s = 0 :=
  if_neg hp

/-- Settles O26: outside ACTIVE both commands end in the guard. -/
theorem phaseGuard : Obligations.PhaseGuard := by
  intro s i hi
  have hguarded : i = .final ∨ ∃ nb, i = .absorb nb := hi.imp_right fun ⟨nb, heq, _⟩ => ⟨nb, heq⟩
  exact ⟨fun hp => exec_guarded hguarded (requireActive_error hp),
    fun hp => ⟨exec_guarded hguarded (requireActive_raises hp), readReg_digest_of_ne nofun⟩⟩

/-! ### ABSORB past a length limit (R233, R235) -/

/-- R94, R235: the operand of an ABSORB that brings LEN to a limit, cut where LEN reaches it; the first part
enters CI. -/
theorem exists_absorb_upTo {s : State} {nb limit : Nat} (hle : nb ≤ 4) (hlimit : limit ≤ lenMax)
    (hlen : s.ci.len.toNat ≤ limit) (hreach : limit ≤ s.ci.len.toNat + nb) :
    ∃ as bs c, absorbOperand nb s.pend.din = as ++ bs ∧
      as = ((List.range (limit - s.ci.len.toNat)).map fun t => s.pend.din.extractLsb' (8 * t) 8) ∧
      s.ci.len.toNat + as.length = limit ∧ as.length + bs.length = nb ∧
      as.foldlM md4Absorb s.ci = some c ∧ c.len.toNat = limit := by
  have hbytes := absorbOperand_eq hle s.pend.din
  have htake : (absorbOperand nb s.pend.din).take (limit - s.ci.len.toNat) =
      (List.range (limit - s.ci.len.toNat)).map fun t => s.pend.din.extractLsb' (8 * t) 8 := by
    rw [hbytes, ← List.map_take, List.take_range, Nat.min_eq_left (by omega)]
  have hlength : ((absorbOperand nb s.pend.din).take (limit - s.ci.len.toNat)).length =
      limit - s.ci.len.toNat := by simp [htake]
  obtain ⟨c, hc, hclen⟩ := absorbList_isSome
    ((absorbOperand nb s.pend.din).take (limit - s.ci.len.toNat)) s.ci (by omega)
  refine ⟨_, (absorbOperand nb s.pend.din).drop (limit - s.ci.len.toNat), c,
    (List.take_append_drop _ _).symm, htake, by omega, ?_, hc, by omega⟩
  rw [← List.length_append, List.take_append_drop, hbytes, List.length_map, List.length_range]

/-- R233: an ABSORB in ACTIVE whose loop raises LENGTH_OVERFLOW, with the bytes before absorbed into CI. -/
theorem exec_absorb_raises {s : State} {nb : Nat} {c : Context} (hp : s.phase = .active)
    (h : absorbBytes (absorbOperand nb s.pend.din) s =
      .ended (raiseError .lengthOverflow { s with ci := c })) :
    exec (.absorb nb) s = .next { s with ci := c, phase := .error, errcode := .lengthOverflow } := by
  rw [exec_absorb_active hp, h, state_ended, raiseError_of_ne (by simp [hp])]

/-- R235 in MD4 mode: the byte after those that bring LEN to LEN_MAX raises, and the later ones are not
reached. -/
theorem absorbBytes_md4_raises {s : State} {as bs : List Byte} {c : Context} (hm : s.mode = .md4)
    (hc : as.foldlM md4Absorb s.ci = some c) (hfull : c.len.toNat = lenMax) (hbs : bs ≠ []) :
    absorbBytes (as ++ bs) s = .ended (raiseError .lengthOverflow { s with ci := c }) := by
  obtain ⟨b, bs, rfl⟩ := List.exists_cons_of_ne_nil hbs
  have hlen : c.len = BitVec.ofNat 64 lenMax := BitVec.eq_of_toNat_eq hfull
  have hbyte : absorbByte b { s with ci := c } = .ended (raiseError .lengthOverflow { s with ci := c }) :=
    (absorbByte_md4 (s := { s with ci := c }) hm).trans (absorbInner_full (s := { s with ci := c }) hlen)
  rw [absorbBytes_append, absorbBytes_md4 as s c hm hc, andThen_goOn, absorbBytes, hbyte, andThen_ended]

/-- R233 in ED2K mode: the closing of segment 2^57 raises, with the segment's bytes in CI. -/
theorem absorbBytes_ed2k_raises {s : State} {as bs : List Byte} {c : Context} (hm : s.mode = .ed2k)
    (hc : as.foldlM md4Absorb s.ci = some c) (hfill : s.ci.len.toNat + as.length = chunkSize)
    (hne : as ≠ []) (hseg : s.segcnt.toNat = segMax) :
    absorbBytes (as ++ bs) s = .ended (raiseError .lengthOverflow { s with ci := c }) := by
  rw [absorbBytes_append, absorbBytes_fills as s c hm hc hfill hne,
    segmentClose_full (s := { s with ci := c }) (segcnt_eq hseg), andThen_ended]

/-- Settles O28: the bytes up to LEN_MAX, then at least one byte more. -/
theorem absorbOverflowsInMd4Mode : Obligations.AbsorbOverflowsInMd4Mode := by
  intro s nb _ hle hp hm hlen hover
  obtain ⟨as, bs, c, hcut, hlanes, hreached, hlength, hc, hfull⟩ :=
    exists_absorb_upTo hle le_rfl hlen hover.le
  refine ⟨c, hlanes ▸ hc, hfull, exec_absorb_raises hp ?_⟩
  rw [hcut]
  exact absorbBytes_md4_raises hm hc hfull (List.ne_nil_of_length_pos (by omega))

/-- Settles O30: the bytes that fill the segment, whose closing raises before the later ones. -/
theorem absorbOverflowsInEd2kMode : Obligations.AbsorbOverflowsInEd2kMode := by
  intro s nb _ hle hp hm hlen hfills hseg
  obtain ⟨as, bs, c, hcut, hlanes, hreached, -, hc, hfull⟩ :=
    exists_absorb_upTo hle (by decide) hlen.le hfills
  refine ⟨c, hlanes ▸ hc, hfull, exec_absorb_raises hp ?_⟩
  rw [hcut]
  exact absorbBytes_ed2k_raises hm hc hreached (List.ne_nil_of_length_pos (by omega)) hseg

/-! ### Leaving ERROR (R236, R238) -/

/-- R238: the exits from ERROR, each with the step that takes it and the phase it leads to. -/
def ErrorExit (s t : State) : Prop :=
  s.resetIn = true ∧ t.phase = .idle ∨
  s.busy = true ∧ s.delay = 0 ∧
    (decode s.pend.cmd = .ok .md4Init ∧ t.phase = .active ∨
     decode s.pend.cmd = .ok .ed2kInit ∧ t.phase = .active ∨
     decode s.pend.cmd = .ok .clear ∧ t.phase = .idle)

theorem ErrorExit.phase_ne {s t : State} (h : ErrorExit s t) : t.phase ≠ .error := by
  rcases h with ⟨-, hp⟩ | ⟨-, -, ⟨-, hp⟩ | ⟨-, hp⟩ | ⟨-, hp⟩⟩ <;> simp [hp]

/-- R191, R236, R238: in ERROR an execution step leaves the computation, unless its command is one of the
three that leave ERROR. -/
theorem executionStep_of_error {s t : State} (hp : s.phase = .error) (hb : s.busy = true)
    (hd : s.delay = 0) (h : executionStep s = .next t) :
    SameComputation s t ∨ t.errcode = .none ∧ ErrorExit s t := by
  have ignored : ∀ {i : Instr} {u : State}, (i = .final ∨ ∃ nb, i = .absorb nb) → exec i s = .next u →
      u = s := fun hi hu =>
    Host.Outcome.next.inj (hu.symm.trans (exec_guarded hi (requireActive_error hp)))
  rcases executionStep_cases h with ⟨i, u, hdec, hu, rfl⟩ | ⟨e, -, rfl⟩
  · cases i with
    | md4Init => cases hu; exact .inr ⟨rfl, .inr ⟨hb, hd, .inl ⟨hdec, rfl⟩⟩⟩
    | ed2kInit => cases hu; exact .inr ⟨rfl, .inr ⟨hb, hd, .inr (.inl ⟨hdec, rfl⟩)⟩⟩
    | clear => cases hu; exact .inr ⟨rfl, .inr ⟨hb, hd, .inr (.inr ⟨hdec, rfl⟩)⟩⟩
    | absorb nb => rw [ignored (.inr ⟨nb, rfl⟩) hu]; exact .inl (.of_host s)
    | final => rw [ignored (.inl rfl) hu]; exact .inl (.of_host s)
  · rw [raiseError_of_error hp]
    exact .inl (.of_host s)

/-- Everything a step can do in ERROR: leave it, with ERRCODE 0, or keep the computation. -/
theorem step_of_error {s t : State} (hp : s.phase = .error) (h : step s = .next t) :
    SameComputation s t ∨ t.errcode = .none ∧ ErrorExit s t := by
  cases hr : s.resetIn with
  | true =>
    obtain rfl := Host.Outcome.next.inj ((step_reset hr).symm.trans h)
    exact .inr ⟨by rw [resetStep_eq]; rfl, .inl ⟨hr, resetStep_phase s⟩⟩
  | false =>
    by_cases hdue : s.busy = true ∧ s.delay = 0
    · obtain ⟨hb, hd⟩ := hdue
      rw [step_due hr hb hd] at h
      exact executionStep_of_error hp hb hd h
    · exact .inl (step_keeps_computation hr hdue h).1

/-- Settles O34: `step_of_error`, and no exit leads to ERROR. -/
theorem onlyInitClearResetLeaveError : Obligations.OnlyInitClearResetLeaveError := by
  intro s t hp h
  rcases step_of_error hp h with hsame | ⟨herr, hexit⟩
  · exact ⟨fun hleft => absurd (hsame.phase.trans hp) hleft, fun _ => ⟨hsame.errcode, hsame.mode,
      hsame.dg, hsame.ci, hsame.co, hsame.segcnt, hsame.seg0⟩⟩
  · exact ⟨fun _ => ⟨herr, hexit⟩, fun hstays => absurd hstays hexit.phase_ne⟩

/-! ### Instances (R246) -/

theorem stepAt_next {p : Platform} {k : Fin p.windows.length} {t : State}
    (h : step p.windows[k].engine = .next t) :
    p.stepAt k = .next ⟨p.windows.set k { p.windows[k] with engine := t }⟩ := by
  simp only [Platform.stepAt, h]

/-- Settles O55: the step replaces the engine of window `k` and no other entry of the list. -/
theorem instancesAreIndependent : Obligations.InstancesAreIndependent := by
  intro p q k h
  obtain ⟨t, ht⟩ := step_answers p.windows[k].engine
  obtain rfl := Host.Outcome.next.inj ((stepAt_next ht).symm.trans h)
  exact ⟨⟨t, ht, List.getElem?_set_self k.isLt⟩, fun j hj => List.getElem?_set_ne hj.symm⟩

end Sys2Proof.Machine

namespace Sys2Proof.Machine

/-! ### The reset input (R260) -/

/-- The level of the reset input is the platform's: a reset leaves it. -/
@[simp] theorem resetStep_resetIn (s : State) : (resetStep s).resetIn = s.resetIn := by
  rw [resetStep_eq]; rfl

theorem resetStep_of_empty {s : State} (hbus : s.bus = []) : resetStep s = clearEngine s := by
  simp only [resetStep, hbus]

theorem resetStep_of_held {a : BusAccess} {rest : List BusAccess} {s : State} (hbus : s.bus = a :: rest)
    (hheld : isHeld a s = true) :
    resetStep s = { clearEngine s with bus := rest, replies := s.replies ++ [.released] } := by
  simp only [resetStep, hbus, hheld, if_true]

/-- Log 4: an access that is not held stays issued. -/
theorem resetStep_of_not_held {a : BusAccess} {rest : List BusAccess} {s : State}
    (hbus : s.bus = a :: rest) (hfree : isHeld a s = false) : resetStep s = clearEngine s := by
  simp only [resetStep, hbus, hfree, Bool.false_eq_true, if_false]

/-- A step under reset is driving the asserted input once more. -/
theorem step_eq_driveReset {s : State} (h : s.resetIn = true) : step s = .next (s.driveReset true) := by
  have hlevel : { resetStep s with resetIn := true } = resetStep s := by
    rw [← (resetStep_resetIn s).trans h]
  rw [step_reset h, driveReset_resets (.inl rfl), hlevel]

/-- R51: after a reset every register reads as in the reset state. -/
theorem readReg_driveReset {level : Bool} {s : State} (h : level = true ∨ s.resetIn = true) (r : Reg) :
    readReg r (s.driveReset level) = readReg r State.reset := by
  rw [driveReset_resets h, resetStep_eq]
  cases r <;> rfl

/-- R260: a reset discards the pending command. -/
theorem driveReset_busy {level : Bool} {s : State} (h : level = true ∨ s.resetIn = true) :
    (s.driveReset level).busy = false := by
  rw [driveReset_resets h, resetStep_eq]; rfl

/-- Settles O22: the state is `resetStep_eq`, the bus by what stands at its head, and the registers read
as in `State.reset`. -/
theorem resetInputResets : Obligations.ResetInputResets := by
  refine fun s => ⟨step_eq_driveReset, driveReset_released, fun level h => ⟨_, rfl, ?_, ?_, ?_,
    readReg_driveReset h .status, readReg_driveReset h .id, readReg_driveReset h .chunk,
    fun _ => isHeld_of_not_busy _ (driveReset_busy h)⟩⟩ <;> rw [driveReset_resets h]
  · rw [resetStep_eq]; rfl
  · intro hbus
    rw [resetStep_of_empty hbus]
    exact ⟨hbus, rfl⟩
  · refine fun a rest hbus => ⟨fun hheld => ?_, fun hfree => ?_⟩
    · rw [resetStep_of_held hbus hheld]
      exact ⟨rfl, rfl⟩
    · rw [resetStep_of_not_held hbus hfree]
      exact ⟨rfl, rfl⟩

end Sys2Proof.Machine

namespace Sys2Proof.Machine

/-! ### Every step answers (R236, log 13) -/

/-- Settles O16 by `step_answers`: reset, the bus and a waiting latency each answer by their own state, and
the execution step answers since every command and every illegal word does. -/
theorem stepAlwaysAnswers : Obligations.StepAlwaysAnswers := step_answers

/-! ### The source's digests (95_test_vectors.md section 1) -/

/-- V-S2. -/
theorem md4Digest_lazy_dog :
    md4Digest ("The quick brown fox jumps over the lazy dog".toList.map fun ch => BitVec.ofNat 8 ch.toNat) =
      [0x1b, 0xee, 0x69, 0xa4, 0x6b, 0xa8, 0x11, 0x18, 0x5c, 0x19, 0x47, 0x62, 0xab, 0xae, 0xae, 0x90] := by
  decide +kernel

/-- V-S3. -/
theorem md4Digest_lazy_cog :
    md4Digest ("The quick brown fox jumps over the lazy cog".toList.map fun ch => BitVec.ofNat 8 ch.toNat) =
      [0xb8, 0x6e, 0x13, 0x0c, 0xe7, 0x02, 0x8d, 0xa5, 0x9e, 0x67, 0x2d, 0x56, 0xad, 0x01, 0x13, 0xdf] := by
  decide +kernel

/-- Settles O48: each digest is one message of a single padded block, evaluated by the kernel. -/
theorem sourceMd4Vectors : Obligations.SourceMd4Vectors :=
  ⟨md4Digest_nil, md4Digest_lazy_dog, md4Digest_lazy_cog⟩

end Sys2Proof.Machine
